-- ==== Sys2Proof/Word.lean ====
section
/-! DEFINITION. The word of the instance: a signed integer in `WMIN ..= WMAX` (`00_scope.md` R8). The spec computes on exact
integers and checks the range afterwards (R9, R12), and no part of a word is ever seen (R45), so the model's words are `Int`s and
the range is a predicate: every operation that forms a word keeps it, and `State.Legal` (Safety.lean) says it of a whole state.
Every `Int` in `Operand` and `State` is a word. -/

namespace Sys2Proof

/-- `WMIN = -2^(WORD_BITS-1)` (R8). -/
def wordMin (bits : Nat) : Int := -((2 ^ (bits - 1) : Nat) : Int)

/-- `WMAX = 2^(WORD_BITS-1) - 1` (R8). -/
def wordMax (bits : Nat) : Int := ((2 ^ (bits - 1) : Nat) : Int) - 1

/-- `WMIN <= x <= WMAX` (R8). -/
def inRange (bits : Nat) (x : Int) : Bool := decide (wordMin bits ≤ x) && decide (x ≤ wordMax bits)

end Sys2Proof
end

