-- ==== Sys2Proof/Config.lean ====
section
/-! DEFINITION. The implementation parameters of `00_scope.md` R7, as a record that every operation of the model takes as an
argument. They are fixed for an instance and are no part of its state (`10_state.md` R29). The values R7 gives this hardware
are `Sys2Proof.Machine.hardware` (Machine/Params.lean). -/

namespace Sys2Proof

/-- `OVERFLOW_POLICY` (R7, R12): what an exact result outside the word range does. -/
inductive OverflowPolicy where
  /-- raise `ArithmeticOverflow` and commit nothing -/
  | fault
  /-- reduce modulo `2^WORD_BITS` into the word range -/
  | wrap
  deriving DecidableEq, Repr

/-- The parameters of R7. A capacity of `none` is unbounded. -/
structure Config where
  /-- `WORD_BITS` -/
  wordBits : Nat
  /-- `OVERFLOW_POLICY` -/
  overflow : OverflowPolicy
  /-- `GROW(addr, len)` (`20_memory.md` R43) -/
  grow : Nat → Nat → Nat
  /-- `MAX_MEM_WORDS` -/
  maxMemWords : Option Nat
  /-- `IQ_CAPACITY` -/
  iqCapacity : Option Nat
  /-- `OL_CAPACITY` -/
  olCapacity : Option Nat

/-- `n` is below the capacity; an unbounded capacity is above every `n`. -/
def belowCapacity (n : Nat) : Option Nat → Bool
  | none => true
  | some cap => decide (n < cap)

/-- `n` does not exceed the capacity. -/
def withinCapacity (n : Nat) : Option Nat → Bool
  | none => true
  | some cap => decide (n ≤ cap)

/-- The parameter values the spec admits: `WORD_BITS ≥ 55` (R7, R8), and the growth law `GROW(addr, len) ≥ addr + 1` for an
access at `addr ≥ len` (`20_memory.md` R43). -/
structure Config.Admitted (c : Config) : Prop where
  wide : 55 ≤ c.wordBits
  growLaw : ∀ addr len, len ≤ addr → addr + 1 ≤ c.grow addr len

end Sys2Proof
end

