-- ==== Sys2Proof/Machine/Params.lean ====
section
/-! DEFINITION. The parameter values of this hardware (`00_scope.md` R7, column "value for this hardware"). -/

namespace Sys2Proof.Machine

/-- `GROW(addr, len) = max(addr + 1, 2 * addr)` (`20_memory.md` R43, `92_eei_decisions.md` D3). -/
def growToDouble (addr _len : Nat) : Nat := max (addr + 1) (2 * addr)

/-- This hardware: 64-bit words (D1), overflow faults (D2), growth by doubling past the address (D3), and the three OPEN
capacities unbounded as in the reference model (D4, D5, D6). -/
def hardware : Config where
  wordBits := 64
  overflow := .fault
  grow := growToDouble
  maxMemWords := none
  iqCapacity := none
  olCapacity := none

end Sys2Proof.Machine
end

