-- ==== Sys2Proof/Syntax.lean ====
section
/-! DEFINITION. The instructions: the ten rows of `spec/opcode_table.json` (`30_encoding.md` R62), their operands (R84) and the
opcodes by format (R61). -/

namespace Sys2Proof

/-- Addressing mode of an operand (`30_encoding.md` R64, `40_engine.md` R84). -/
inductive Mode where
  | position | immediate | relative
  deriving DecidableEq, Repr

/-- A decoded operand: the raw word of its slot and its mode (`40_engine.md` R84). -/
structure Operand where
  mode : Mode
  raw : Int
  deriving DecidableEq, Repr

/-- One instruction. Read operands are named `a`, `b` and `t` (jump target), the write operand `d`, as the table names them;
the roles are those of R67. -/
inductive Instr where
  /-- `ADD a, b, d` (R100) -/
  | add (a b d : Operand)
  /-- `MUL a, b, d` (R101) -/
  | mul (a b d : Operand)
  /-- `IN d` (R130) -/
  | input (d : Operand)
  /-- `OUT a` (R132) -/
  | output (a : Operand)
  /-- `JT a, t` (R120) -/
  | jumpIfTrue (a t : Operand)
  /-- `JF a, t` (R121) -/
  | jumpIfFalse (a t : Operand)
  /-- `LT a, b, d` (R110) -/
  | lessThan (a b d : Operand)
  /-- `EQ a, b, d` (R111) -/
  | equals (a b d : Operand)
  /-- `ARB a` (R150) -/
  | adjustRelativeBase (a : Operand)
  /-- `HLT` (R122) -/
  | halt
  deriving DecidableEq, Repr

/-- Opcodes of format F1: one operand word (R61). -/
inductive Op1 where
  | input | output | adjustRelativeBase
  deriving DecidableEq, Repr

/-- Opcodes of format F2: two operand words (R61). -/
inductive Op2 where
  | jumpIfTrue | jumpIfFalse
  deriving DecidableEq, Repr

/-- Opcodes of format F3: three operand words (R61). -/
inductive Op3 where
  | add | mul | lessThan | equals
  deriving DecidableEq, Repr

/-- The opcode of an instruction word, by format (R61, R62). -/
inductive Opcode where
  | f0
  | f1 (o : Op1)
  | f2 (o : Op2)
  | f3 (o : Op3)
  deriving DecidableEq, Repr

/-- What the instruction word alone says: the opcode and the mode of each used slot (R60, R65). -/
inductive Header where
  | f0
  | f1 (o : Op1) (m0 : Mode)
  | f2 (o : Op2) (m0 m1 : Mode)
  | f3 (o : Op3) (m0 m1 m2 : Mode)
  deriving DecidableEq, Repr

end Sys2Proof
end

