-- ==== Sys2Proof/WellFormed.lean ====
section
/-! DEFINITION. Checks on an instruction as syntax. `Instr.wf` is what every fetched instruction meets: each raw value is a word
(`30_encoding.md` R66). `Instr.writesToAddress` is what the source asks of well-formed programs beyond that (`40_engine.md`
R86): no write operand is Immediate. The decoder accepts such an instruction (R68 d), and its execution raises
`InvalidWriteTarget`, so it is no part of `wf`. -/

namespace Sys2Proof

/-- The operand's raw value is a word (R66). -/
def Operand.wf (c : Config) (o : Operand) : Bool := inRange c.wordBits o.raw

/-- The operands of an instruction, in slot order (R67). -/
def Instr.operands : Instr → List Operand
  | .add a b d => [a, b, d]
  | .mul a b d => [a, b, d]
  | .input d => [d]
  | .output a => [a]
  | .jumpIfTrue a t => [a, t]
  | .jumpIfFalse a t => [a, t]
  | .lessThan a b d => [a, b, d]
  | .equals a b d => [a, b, d]
  | .adjustRelativeBase a => [a]
  | .halt => []

/-- The write operand of an instruction, if it has one (R67). -/
def Instr.writeOperand : Instr → Option Operand
  | .add _ _ d => some d
  | .mul _ _ d => some d
  | .input d => some d
  | .output _ => none
  | .jumpIfTrue _ _ => none
  | .jumpIfFalse _ _ => none
  | .lessThan _ _ d => some d
  | .equals _ _ d => some d
  | .adjustRelativeBase _ => none
  | .halt => none

/-- Every raw value is a word (R66). -/
def Instr.wf (c : Config) (i : Instr) : Bool := i.operands.all (Operand.wf c)

/-- The write operand, if there is one, is not Immediate (R86: "well-formed programs never do this"). -/
def Instr.writesToAddress (i : Instr) : Bool :=
  match i.writeOperand with
  | none => true
  | some d => decide (d.mode ≠ .immediate)

end Sys2Proof
end

