-- ==== Sys2Proof/Decode.lean ====
section
/-! DEFINITION. The decimal encoding (`30_encoding.md`): the decoder, total on every list of words and rejecting by name, and
after it the encoder, which writes the canonical word (R70). One table of opcode numbers serves both. -/

namespace Sys2Proof

/-- Why the decoder rejects. -/
inductive DecodeError where
  /-- a negative instruction word, or an opcode outside the table (`40_engine.md` R82, `30_encoding.md` R68 a, b) -/
  | unknownOpcode
  /-- a mode digit of a used slot is 3 to 9 (`40_engine.md` R83, `30_encoding.md` R68 c) -/
  | unknownAddressingMode
  /-- the list ends before the instruction does; in the machine the operand words come from memory, so no fetch meets this -/
  | missingWord
  deriving DecidableEq, Repr

/-- `digit(w, k) = (w div 10^k) mod 10` (`00_scope.md` R11). -/
def digit (w : Int) (k : Nat) : Int := w / ((10 ^ k : Nat) : Int) % 10

/-- The opcode map (R62). LessThan's number 7 is the spec's own placement (`92_eei_decisions.md` D19). -/
def opcodeTable : List (Int × Opcode) :=
  [(1, .f3 .add), (2, .f3 .mul), (3, .f1 .input), (4, .f1 .output), (5, .f2 .jumpIfTrue), (6, .f2 .jumpIfFalse),
   (7, .f3 .lessThan), (8, .f3 .equals), (9, .f1 .adjustRelativeBase), (99, .f0)]

/-- The opcode of the row with number `n`, if there is one. -/
def lookupOpcode (n : Int) : List (Int × Opcode) → Option Opcode
  | [] => none
  | (k, o) :: rest => if n = k then some o else lookupOpcode n rest

/-- The opcode with a given number (R62). -/
def opcodeOfNumber (n : Int) : Option Opcode := lookupOpcode n opcodeTable

/-- `DecodeOpcode` (`40_engine.md` R82): a negative word is rejected before any `mod`. -/
def decodeOpcode (w : Int) : Except DecodeError Opcode :=
  if w < 0 then .error .unknownOpcode
  else match opcodeOfNumber (w % 100) with
    | none => .error .unknownOpcode
    | some o => .ok o

/-- The mode a digit selects (`30_encoding.md` R64). -/
def modeOfDigit (n : Int) : Except DecodeError Mode :=
  if n = 0 then .ok .position
  else if n = 1 then .ok .immediate
  else if n = 2 then .ok .relative
  else .error .unknownAddressingMode

/-- `DecodeMode(w, i)`: the mode of slot `i` is the digit at place `10^(i+2)` (`40_engine.md` R83, `30_encoding.md` R60). -/
def decodeMode (w : Int) (slot : Nat) : Except DecodeError Mode := modeOfDigit (digit w (slot + 2))

/-- All an instruction word says: its opcode, then the mode digits of the used slots in slot order; digits above them are not
examined (`40_engine.md` R82 and R83, `30_encoding.md` R65). -/
def decodeHeader (w : Int) : Except DecodeError Header := do
  match ← decodeOpcode w with
  | .f0 => return .f0
  | .f1 o =>
    let m0 ← decodeMode w 0
    return .f1 o m0
  | .f2 o =>
    let m0 ← decodeMode w 0
    let m1 ← decodeMode w 1
    return .f2 o m0 m1
  | .f3 o =>
    let m0 ← decodeMode w 0
    let m1 ← decodeMode w 1
    let m2 ← decodeMode w 2
    return .f3 o m0 m1 m2

/-- How many operand slots the instruction word has (R61, R63). -/
def Header.slots : Header → Nat
  | .f0 => 0
  | .f1 _ _ => 1
  | .f2 _ _ _ => 2
  | .f3 _ _ _ _ => 3

/-- The instruction of an F1 opcode. -/
def Op1.instr : Op1 → Operand → Instr
  | .input => .input
  | .output => .output
  | .adjustRelativeBase => .adjustRelativeBase

/-- The instruction of an F2 opcode. -/
def Op2.instr : Op2 → Operand → Operand → Instr
  | .jumpIfTrue => .jumpIfTrue
  | .jumpIfFalse => .jumpIfFalse

/-- The instruction of an F3 opcode. -/
def Op3.instr : Op3 → Operand → Operand → Operand → Instr
  | .add => .add
  | .mul => .mul
  | .lessThan => .lessThan
  | .equals => .equals

/-- An instruction from the front of a list of words, with the words after it (R61, R66). -/
def decode : List Int → Except DecodeError (Instr × List Int)
  | [] => .error .missingWord
  | w :: ws =>
    match decodeHeader w, ws with
    | .error e, _ => .error e
    | .ok .f0, rest => .ok (.halt, rest)
    | .ok (.f1 o m0), r0 :: rest => .ok (o.instr ⟨m0, r0⟩, rest)
    | .ok (.f2 o m0 m1), r0 :: r1 :: rest => .ok (o.instr ⟨m0, r0⟩ ⟨m1, r1⟩, rest)
    | .ok (.f3 o m0 m1 m2), r0 :: r1 :: r2 :: rest => .ok (o.instr ⟨m0, r0⟩ ⟨m1, r1⟩ ⟨m2, r2⟩, rest)
    | .ok _, _ => .error .missingWord

/-! ## The encoder -/

/-- The digit of a mode (R64). -/
def modeDigit : Mode → Int
  | .position => 0
  | .immediate => 1
  | .relative => 2

/-- The number of an opcode (R62). -/
def opcodeNumber : Opcode → Int
  | .f0 => 99
  | .f1 .input => 3
  | .f1 .output => 4
  | .f1 .adjustRelativeBase => 9
  | .f2 .jumpIfTrue => 5
  | .f2 .jumpIfFalse => 6
  | .f3 .add => 1
  | .f3 .mul => 2
  | .f3 .lessThan => 7
  | .f3 .equals => 8

/-- The canonical instruction word `c + 100*m0 + 1000*m1 + 10000*m2` (R70). -/
def encodeHeader : Header → Int
  | .f0 => opcodeNumber .f0
  | .f1 o m0 => opcodeNumber (.f1 o) + 100 * modeDigit m0
  | .f2 o m0 m1 => opcodeNumber (.f2 o) + 100 * modeDigit m0 + 1000 * modeDigit m1
  | .f3 o m0 m1 m2 =>
    opcodeNumber (.f3 o) + 100 * modeDigit m0 + 1000 * modeDigit m1 + 10000 * modeDigit m2

/-- The header of an instruction. -/
def Instr.header : Instr → Header
  | .add a b d => .f3 .add a.mode b.mode d.mode
  | .mul a b d => .f3 .mul a.mode b.mode d.mode
  | .input d => .f1 .input d.mode
  | .output a => .f1 .output a.mode
  | .jumpIfTrue a t => .f2 .jumpIfTrue a.mode t.mode
  | .jumpIfFalse a t => .f2 .jumpIfFalse a.mode t.mode
  | .lessThan a b d => .f3 .lessThan a.mode b.mode d.mode
  | .equals a b d => .f3 .equals a.mode b.mode d.mode
  | .adjustRelativeBase a => .f1 .adjustRelativeBase a.mode
  | .halt => .f0

/-- The words of an instruction: its canonical instruction word, then its raw values in slot order (R61, R66, R70). -/
def encode (i : Instr) : List Int := encodeHeader i.header :: i.operands.map (·.raw)

/-- Operand count plus one (R63). -/
def Instr.width : Instr → Nat
  | .add _ _ _ => 4
  | .mul _ _ _ => 4
  | .input _ => 2
  | .output _ => 2
  | .jumpIfTrue _ _ => 3
  | .jumpIfFalse _ _ => 3
  | .lessThan _ _ _ => 4
  | .equals _ _ _ => 4
  | .adjustRelativeBase _ => 2
  | .halt => 1

/-! ## The host's opcode-table words -/

/-- The word whose `bits` low bits, in two's complement, are those of `n`. The spec gives a word no bit layout
(`20_memory.md` R45); this serves only the two functions the host calls with a number (notes/assumptions/9.md). -/
def wordOfBits (bits n : Nat) : Int :=
  if n % 2 ^ bits < 2 ^ (bits - 1) then ((n % 2 ^ bits : Nat) : Int)
  else ((n % 2 ^ bits : Nat) : Int) - ((2 ^ bits : Nat) : Int)

/-- The four words of an instruction whose bits are `w`: the first word is the low `WORD_BITS` bits, and a later word's bits
count on from it; every bit above `nbits` is 0. -/
def tableWords (nbits w : Nat) : List Int :=
  let bits := Machine.hardware.wordBits
  let v := w % 2 ^ nbits
  [wordOfBits bits v, wordOfBits bits (v / 2 ^ bits), wordOfBits bits (v / 2 ^ (2 * bits)),
   wordOfBits bits (v / 2 ^ (3 * bits))]

/-- The instruction the decoder reads from an instruction whose bits are `w`. -/
def decodeTableWord (nbits w : Nat) : Option Instr :=
  match decode (tableWords nbits w) with
  | .ok (i, _) => some i
  | .error _ => none

end Sys2Proof
end

