-- ==== Sys2Proof/Machine/State.lean ====
section
/-! DEFINITION. The architectural state of one instance: the tuple `(MEM, MEM_LEN, PC, RB, STATUS, FAULT_KIND, FAULT_PC, IQ,
OL)` of `10_state.md`, as plain data, and the state after reset (R32, R220). -/

namespace Sys2Proof.Machine

/-- `STATUS` (`10_state.md` R25). -/
inductive Status where
  /-- 0: executing steps, or constructed and not yet run -/
  | running
  /-- 1: stopped just after an Output; a run call resumes it -/
  | suspendedOnOutput
  /-- 2: stopped by Halt; terminal -/
  | halted
  /-- 3: stopped by a fault; terminal -/
  | faulted
  deriving DecidableEq, Repr

/-- The fault kinds (`60_exceptions.md` R190), in the order of their codes 1 to 8. They are architectural: raising one puts the
instance in `Faulted` (R194), which is a next state of the model and not an end of it. -/
inductive FaultKind where
  /-- 1: decode of every step -/
  | unknownOpcode
  /-- 2: decode of every instruction with operands -/
  | unknownAddressingMode
  /-- 3: Immediate mode in a write slot -/
  | invalidWriteTarget
  /-- 4: Input on an empty queue -/
  | inputExhausted
  /-- 5: the host transaction `get_last_output` on an empty log -/
  | emptyOutputLog
  /-- 6: a negative resolved address, or a negative `PC` at fetch -/
  | negativeAddress
  /-- 7: an exact result outside the word range under `OVERFLOW_POLICY = fault` -/
  | arithmeticOverflow
  /-- 8: an address, the queue or the log beyond its capacity -/
  | resourceExhausted
  deriving DecidableEq, Repr

/-- `MEM` and `MEM_LEN` (`10_state.md` R21). `cells` lists the cells of `MEM` that do not hold 0, addresses strictly rising; a
cell below `len` that is not listed holds 0 (`20_memory.md` R54). `Memory.wf` says the form holds. -/
structure Memory where
  cells : List (Nat × Int)
  len : Nat
  deriving DecidableEq, Repr

/-- The state of one instance (`10_state.md` R20 to R28). -/
structure State where
  /-- `MEM`, `MEM_LEN` (R21) -/
  mem : Memory
  /-- `PC` (R22) -/
  pc : Int
  /-- `RB` (R23) -/
  rb : Int
  /-- `STATUS` (R25) -/
  status : Status
  /-- `FAULT_KIND` (R26); `none` is code 0, no fault -/
  faultKind : Option FaultKind
  /-- `FAULT_PC` (R26) -/
  faultPc : Int
  /-- `IQ`, head first (R27) -/
  iq : List Int
  /-- `OL`, oldest entry first (R28) -/
  ol : List Int
  deriving DecidableEq, Repr

/-- No step ends the model with a fault. Every error of this hardware has a described entry, `EnterFault` (`60_exceptions.md`
R194), and is a next state with `STATUS = Faulted`; the type has no constructor, so that nothing can be raised. Safe: there is
nothing a proof could lean on. -/
inductive Fault where
  deriving DecidableEq, Repr

/-- Why the model gives no next state. -/
inductive Refusal where
  /-- an instruction that has no meaning yet; raised by `exec` alone, and by no arm of it now. Safe -/
  | notModelled (mnemonic : String)
  /-- `new` with an element outside the word range: "the host loader refuses it, and no instance is created"
  (`49_host_interface.md` R160). Raised by `newInstance` alone, never by a step. Safe -/
  | programElementOutOfRange
  /-- `new` with more words than `MAX_MEM_WORDS`, on which the spec says nothing (notes/assumptions/7.md). Raised by
  `newInstance` alone, never by a step, and not on this hardware, whose memory is unbounded. Safe -/
  | programLongerThanMemory
  deriving DecidableEq, Repr

/-- The state after `new([])` (`10_state.md` R32 with `L = 0`, `70_reset_and_hazards.md` R220). A program comes in through
`newInstance` (notes/assumptions/8.md). -/
def State.reset : State where
  mem := { cells := [], len := 0 }
  pc := 0
  rb := 0
  status := .running
  faultKind := none
  faultPc := 0
  iq := []
  ol := []

end Sys2Proof.Machine
end

