-- ==== Sys2Proof/Machine/Ops.lean ====
section
/-! DEFINITION. The operations every instruction is built from: memory access with growth (`20_memory.md`), the result of a
check, entering the fault state (`60_exceptions.md` R194) and ending a step (`40_engine.md` R91). -/

namespace Sys2Proof.Machine

/-! ## Codes -/

/-- The numeric encoding of `STATUS` for host reads (`10_state.md` R25). -/
def Status.code : Status → Nat
  | .running => 0
  | .suspendedOnOutput => 1
  | .halted => 2
  | .faulted => 3

/-- `code(k)` (`60_exceptions.md` R190). -/
def FaultKind.code : FaultKind → Nat
  | .unknownOpcode => 1
  | .unknownAddressingMode => 2
  | .invalidWriteTarget => 3
  | .inputExhausted => 4
  | .emptyOutputLog => 5
  | .negativeAddress => 6
  | .arithmeticOverflow => 7
  | .resourceExhausted => 8

/-- `FAULT_KIND` as the host reads it: 0 while no fault has happened (`10_state.md` R26). -/
def faultCode : Option FaultKind → Nat
  | none => 0
  | some k => k.code

/-- The fault kind of a decoder's rejection (`40_engine.md` R82, R83). `missingWord` arises on lists only, never on memory, and
is given the kind of an undefined opcode. -/
def faultOfDecodeError : DecodeError → FaultKind
  | .unknownOpcode => .unknownOpcode
  | .unknownAddressingMode => .unknownAddressingMode
  | .missingWord => .unknownOpcode

/-! ## State updates -/

/-- `s` with memory `m`. -/
def State.setMem (s : State) (m : Memory) : State := { s with mem := m }

/-- `PC <- v`. -/
def State.setPc (s : State) (v : Int) : State := { s with pc := v }

/-- `RB <- v`. -/
def State.setRb (s : State) (v : Int) : State := { s with rb := v }

/-- `STATUS <- v`. -/
def State.setStatus (s : State) (v : Status) : State := { s with status := v }

/-- `s` with input queue `q`. -/
def State.setIq (s : State) (q : List Int) : State := { s with iq := q }

/-- `OL.append(v)` (`44_io.md` R133). -/
def State.appendOl (s : State) (v : Int) : State := { s with ol := s.ol ++ [v] }

/-! ## Memory -/

/-- The word listed for an address; an address not listed holds 0 (`20_memory.md` R54). -/
def lookupCell (a : Nat) : List (Nat × Int) → Int
  | [] => 0
  | (b, v) :: rest => if a = b then v else lookupCell a rest

/-- A list of cells with `v` at `a`, kept in canonical form: a cell that becomes 0 is no longer listed. -/
def putCell (a : Nat) (v : Int) : List (Nat × Int) → List (Nat × Int)
  | [] => if v = 0 then [] else [(a, v)]
  | (b, u) :: rest =>
    if a < b then (if v = 0 then (b, u) :: rest else (a, v) :: (b, u) :: rest)
    else if a = b then (if v = 0 then rest else (a, v) :: rest)
    else (b, u) :: putCell a v rest

/-- Every address listed is above `lo` and below `hi`, addresses rise strictly, and no listed word is 0. -/
def cellsWf (hi : Nat) : Nat → List (Nat × Int) → Bool
  | _, [] => true
  | lo, (a, v) :: rest => decide (lo ≤ a) && decide (a < hi) && decide (v ≠ 0) && cellsWf hi (a + 1) rest

/-- The canonical form of memory: the listed cells exist (`10_state.md` R21), rise strictly and do not hold 0. -/
def Memory.wf (m : Memory) : Bool := cellsWf m.len 0 m.cells

/-- The word a read of address `a` returns, now or after any growth: the cell's word if it exists, and 0 beyond the end
(`20_memory.md` R42, R54). -/
def Memory.word (m : Memory) (a : Nat) : Int := if a < m.len then lookupCell a m.cells else 0

/-- The bound of R42: `min(x, MAX_MEM_WORDS)`. -/
def capLen (c : Config) (x : Nat) : Nat :=
  match c.maxMemWords with
  | none => x
  | some cap => min x cap

/-- The growth of `Access` (`20_memory.md` R42): an access at or beyond `MEM_LEN` extends memory with zero cells to
`min(GROW(addr, MEM_LEN), MAX_MEM_WORDS)`. -/
def Memory.reach (c : Config) (a : Nat) (m : Memory) : Memory :=
  if a < m.len then m
  else { cells := m.cells.filter fun cell => decide (cell.1 < m.len), len := capLen c (c.grow a m.len) }

/-- `MemWrite` at a checked address: growth, then the store (`20_memory.md` R42). -/
def Memory.store (c : Config) (a : Nat) (v : Int) (m : Memory) : Memory :=
  { cells := putCell a v (m.reach c a).cells, len := (m.reach c a).len }

/-- The address tests of `Access` and of `CheckAddr` (`20_memory.md` R42, `40_engine.md` R86). -/
def checkAddr (c : Config) (a : Int) : Except FaultKind Nat :=
  if a < 0 then .error .negativeAddress
  else if belowCapacity a.toNat c.maxMemWords then .ok a.toNat
  else .error .resourceExhausted

/-- `Access(addr, kind, v)` (`20_memory.md` R42): a read when `write` is `none`, else a write of that word. Answers the word the
cell holds afterwards, and the memory. -/
def access (c : Config) (addr : Int) (write : Option Int) (m : Memory) : Except FaultKind (Int × Memory) :=
  match checkAddr c addr with
  | .error k => .error k
  | .ok n =>
    match write with
    | none => .ok ((m.reach c n).word n, m.reach c n)
    | some v => .ok (v, m.store c n v)

/-- The memory of a program: `MEM[i] = p_i`, `MEM_LEN = L` (`10_state.md` R32). -/
def listCells : Nat → List Int → List (Nat × Int)
  | _, [] => []
  | i, v :: rest => if v = 0 then listCells (i + 1) rest else (i, v) :: listCells (i + 1) rest

/-- The memory that holds a program and nothing else (`10_state.md` R32). -/
def Memory.ofProgram (program : List Int) : Memory := { cells := listCells 0 program, len := program.length }

/-- Words laid into memory from address `a` on, as a load from outside does: the length becomes just enough. -/
def Memory.place : Nat → List Int → Memory → Memory
  | _, [], m => m
  | a, v :: rest, m => Memory.place (a + 1) rest { cells := putCell a v m.cells, len := max m.len (a + 1) }

/-! ## The result of a check, and of a step -/

/-- The result of one phase of a step: a value, or a raised fault, each with the state as the memory growth of the phase left it
(`40_engine.md` R90: growth made before a fault stays in place). -/
inductive Res (α : Type) where
  | ok (a : α) (s : State)
  | raise (k : FaultKind) (s : State)
  deriving Repr

/-- Phases in the order written; a raised fault ends them (`00_scope.md` R10). -/
def Res.bind {α β : Type} (r : Res α) (f : α → State → Res β) : Res β :=
  match r with
  | .ok a s => f a s
  | .raise k s => .raise k s

/-- A check that accesses nothing. -/
def check {α : Type} (e : Except FaultKind α) (s : State) : Res α :=
  match e with
  | .ok a => .ok a s
  | .error k => .raise k s

/-- `MemRead(addr, 1)` (`00_scope.md` R10, `20_memory.md` R42). -/
def memRead (c : Config) (addr : Int) (s : State) : Res Int :=
  match access c addr none s.mem with
  | .error k => .raise k s
  | .ok (v, m) => .ok v (s.setMem m)

/-- `MemWrite` at commit: the address was resolved by `write-addr`, so it cannot fault (`40_engine.md` R86, R90). -/
def State.store (c : Config) (a : Nat) (v : Int) (s : State) : State := s.setMem (s.mem.store c a v)

/-- The result of a step that does not fault (`40_engine.md` R89). -/
inductive StepResult where
  | continue
  | output
  | halt
  deriving DecidableEq, Repr

/-- `EnterFault(k, pc)`: taking a fault (`60_exceptions.md` R194). Only the first fault is recorded. There is no return from it
(R195). -/
def enterFault (k : FaultKind) (pc : Int) (s : State) : State :=
  if s.status = .faulted then s
  else { s with status := .faulted, faultKind := some k, faultPc := pc }

/-- The case analysis of the engine loop on a step's result (`40_engine.md` R91); `pc0` is the address of the step. -/
def conclude (pc0 : Int) (r : Res StepResult) : Host.Outcome State Fault Refusal :=
  match r with
  | .ok .continue s => .next s
  | .ok .output s => .next (s.setStatus .suspendedOnOutput)
  | .ok .halt s => .next (s.setStatus .halted)
  | .raise k s => .next (enterFault k pc0 s)

end Sys2Proof.Machine
end

