-- ==== Sys2Proof/Machine/Flags.lean ====
section
/-! DEFINITION. The instance has no flags (`10_state.md` R24). What stands in their place: the overflow check on every exact
result (`00_scope.md` R12) and the word a comparison writes (R9). -/

namespace Sys2Proof.Machine

/-- `ovf(x)` (`00_scope.md` R12). -/
def ovf (c : Config) (x : Int) : Except FaultKind Int :=
  if inRange c.wordBits x then .ok x
  else match c.overflow with
    | .fault => .error .arithmeticOverflow
    | .wrap => .ok ((x - wordMin c.wordBits) % ((2 ^ c.wordBits : Nat) : Int) + wordMin c.wordBits)

/-- Booleans as words: true is 1, false is 0 (`00_scope.md` R9). -/
def boolWord (b : Bool) : Int := if b then 1 else 0

end Sys2Proof.Machine
end

