-- ==== Sys2Proof/Machine/Operands.lean ====
section
/-! DEFINITION. Operand resolution (`40_engine.md` R85, R86) and the PC advance (R88). -/

namespace Sys2Proof.Machine

/-- The address a Position or Relative operand denotes, checked; Immediate denotes none (`40_engine.md` R86). -/
def resolveAddr (c : Config) (rb : Int) (o : Operand) : Except FaultKind Nat :=
  match o.mode with
  | .immediate => .error .invalidWriteTarget
  | .position => checkAddr c o.raw
  | .relative =>
    match ovf c (o.raw + rb) with
    | .error k => .error k
    | .ok a => checkAddr c a

/-- `write-addr(op)` (`40_engine.md` R86): it accesses no memory. -/
def writeAddr (c : Config) (o : Operand) (s : State) : Res Nat := check (resolveAddr c s.rb o) s

/-- `value(op)` (`40_engine.md` R85). -/
def readValue (c : Config) (o : Operand) (s : State) : Res Int :=
  match o.mode with
  | .immediate => .ok o.raw s
  | .position => memRead c o.raw s
  | .relative => (check (ovf c (o.raw + s.rb)) s).bind (memRead c)

/-- The next `PC` of a sequential advance by `width` words from `pc0` (`40_engine.md` R88); `PC` still holds `pc0`. -/
def advance (c : Config) (width : Int) (s : State) : Res Int := check (ovf c (s.pc + width)) s

end Sys2Proof.Machine
end

