-- ==== Sys2Proof/Machine/Arithmetic.lean ====
section
/-! DEFINITION. Add and Multiply (`41_arithmetic.md`), and the shape they share with the comparisons. -/

namespace Sys2Proof.Machine

/-- An F3 instruction: two values, a write address, the operation, the advance, then the commit of one cell and `PC`
(`41_arithmetic.md` R100, R101; `42_compare.md` R110, R111). -/
def binaryOp (c : Config) (op : Int → Int → Except FaultKind Int) (a b d : Operand) (s : State) :
    Host.Outcome State Fault Refusal :=
  conclude s.pc <|
    (readValue c a s).bind fun x s =>
    (readValue c b s).bind fun y s =>
    (writeAddr c d s).bind fun dst s =>
    (check (op x y) s).bind fun r s =>
    (advance c 4 s).bind fun npc s =>
    .ok .continue ((s.store c dst r).setPc npc)

/-- Add (`41_arithmetic.md` R100). -/
def addWith (c : Config) (a b d : Operand) (s : State) : Host.Outcome State Fault Refusal :=
  binaryOp c (fun x y => ovf c (x + y)) a b d s

/-- Multiply (`41_arithmetic.md` R101). -/
def mulWith (c : Config) (a b d : Operand) (s : State) : Host.Outcome State Fault Refusal :=
  binaryOp c (fun x y => ovf c (x * y)) a b d s

/-- Add on this hardware. -/
def execAdd (a b d : Operand) (s : State) : Host.Outcome State Fault Refusal := addWith hardware a b d s

/-- Multiply on this hardware. -/
def execMul (a b d : Operand) (s : State) : Host.Outcome State Fault Refusal := mulWith hardware a b d s

end Sys2Proof.Machine
end

