-- ==== Sys2Proof/Machine/Compare.lean ====
section
/-! DEFINITION. LessThan and Equals (`42_compare.md`). -/

namespace Sys2Proof.Machine

/-- LessThan, a signed comparison (`42_compare.md` R110). -/
def lessThanWith (c : Config) (a b d : Operand) (s : State) : Host.Outcome State Fault Refusal :=
  binaryOp c (fun x y => .ok (boolWord (decide (x < y)))) a b d s

/-- Equals (`42_compare.md` R111). -/
def equalsWith (c : Config) (a b d : Operand) (s : State) : Host.Outcome State Fault Refusal :=
  binaryOp c (fun x y => .ok (boolWord (decide (x = y)))) a b d s

/-- LessThan on this hardware. -/
def execLessThan (a b d : Operand) (s : State) : Host.Outcome State Fault Refusal := lessThanWith hardware a b d s

/-- Equals on this hardware. -/
def execEquals (a b d : Operand) (s : State) : Host.Outcome State Fault Refusal := equalsWith hardware a b d s

end Sys2Proof.Machine
end

