-- ==== Sys2Proof/Machine/Control.lean ====
section
/-! DEFINITION. JumpIfTrue, JumpIfFalse and Halt (`43_control.md`). -/

namespace Sys2Proof.Machine

/-- A conditional jump. Both operands are resolved, in slot order, whether or not the jump is taken (`43_control.md` R120,
R121; `92_eei_decisions.md` D28); the target is any word and is not checked here. -/
def jumpWhen (c : Config) (taken : Int → Bool) (a t : Operand) (s : State) : Host.Outcome State Fault Refusal :=
  conclude s.pc <|
    (readValue c a s).bind fun x s =>
    (readValue c t s).bind fun target s =>
    (if taken x then .ok target s else advance c 3 s : Res Int).bind fun npc s =>
    .ok .continue (s.setPc npc)

/-- JumpIfTrue (`43_control.md` R120). -/
def jumpIfTrueWith (c : Config) (a t : Operand) (s : State) : Host.Outcome State Fault Refusal :=
  jumpWhen c (fun x => decide (x ≠ 0)) a t s

/-- JumpIfFalse (`43_control.md` R121). -/
def jumpIfFalseWith (c : Config) (a t : Operand) (s : State) : Host.Outcome State Fault Refusal :=
  jumpWhen c (fun x => decide (x = 0)) a t s

/-- Halt (`43_control.md` R122). -/
def haltWith (c : Config) (s : State) : Host.Outcome State Fault Refusal :=
  conclude s.pc <| (advance c 1 s).bind fun npc s => .ok .halt (s.setPc npc)

/-- JumpIfTrue on this hardware. -/
def execJumpIfTrue (a t : Operand) (s : State) : Host.Outcome State Fault Refusal := jumpIfTrueWith hardware a t s

/-- JumpIfFalse on this hardware. -/
def execJumpIfFalse (a t : Operand) (s : State) : Host.Outcome State Fault Refusal := jumpIfFalseWith hardware a t s

/-- Halt on this hardware. -/
def execHalt (s : State) : Host.Outcome State Fault Refusal := haltWith hardware s

end Sys2Proof.Machine
end

