-- ==== Sys2Proof/Machine/Io.lean ====
section
/-! DEFINITION. Input and Output (`44_io.md`). -/

namespace Sys2Proof.Machine

/-- The head of the input queue and the queue without it, or `InputExhausted` (`44_io.md` R130, R131). -/
def popInput (q : List Int) : Except FaultKind (Int × List Int) :=
  match q with
  | [] => .error .inputExhausted
  | v :: rest => .ok (v, rest)

/-- Input (`44_io.md` R130): the write address is resolved before the queue is tested. -/
def inputWith (c : Config) (d : Operand) (s : State) : Host.Outcome State Fault Refusal :=
  conclude s.pc <|
    (writeAddr c d s).bind fun dst s =>
    (check (popInput s.iq) s).bind fun popped s =>
    (advance c 2 s).bind fun npc s =>
    .ok .continue (((s.setIq popped.2).store c dst popped.1).setPc npc)

/-- `ResourceExhausted` when the log is full (`44_io.md` R132). -/
def checkLogRoom (c : Config) (s : State) : Except FaultKind Unit :=
  if belowCapacity s.ol.length c.olCapacity then .ok () else .error .resourceExhausted

/-- Output (`44_io.md` R132): the step's result is `Output`, on which the engine suspends (`40_engine.md` R91). -/
def outputWith (c : Config) (a : Operand) (s : State) : Host.Outcome State Fault Refusal :=
  conclude s.pc <|
    (readValue c a s).bind fun v s =>
    (check (checkLogRoom c s) s).bind fun _ s =>
    (advance c 2 s).bind fun npc s =>
    .ok .output ((s.appendOl v).setPc npc)

/-- Input on this hardware. -/
def execInput (d : Operand) (s : State) : Host.Outcome State Fault Refusal := inputWith hardware d s

/-- Output on this hardware. -/
def execOutput (a : Operand) (s : State) : Host.Outcome State Fault Refusal := outputWith hardware a s

end Sys2Proof.Machine
end

