-- ==== Sys2Proof/Machine/RelativeBase.lean ====
section
/-! DEFINITION. AdjustRelativeBase (`45_relative_base.md`). -/

namespace Sys2Proof.Machine

/-- AdjustRelativeBase (`45_relative_base.md` R150): a Relative operand uses `RB` as it was before the adjustment. -/
def adjustRelativeBaseWith (c : Config) (a : Operand) (s : State) : Host.Outcome State Fault Refusal :=
  conclude s.pc <|
    (readValue c a s).bind fun v s =>
    (check (ovf c (s.rb + v)) s).bind fun nrb s =>
    (advance c 2 s).bind fun npc s =>
    .ok .continue ((s.setRb nrb).setPc npc)

/-- AdjustRelativeBase on this hardware. -/
def execAdjustRelativeBase (a : Operand) (s : State) : Host.Outcome State Fault Refusal :=
  adjustRelativeBaseWith hardware a s

end Sys2Proof.Machine
end

