-- ==== Sys2Proof/Machine/Dispatch.lean ====
section
/-! DEFINITION. `Execute(ins, ops, pc0)` (`40_engine.md` R87): one arm per instruction. `PC` holds `pc0` until the commit. -/

namespace Sys2Proof.Machine

def exec (i : Instr) (s : State) : Host.Outcome State Fault Refusal :=
  match i with
  | .add a b d => Sys2Proof.Machine.execAdd a b d s
  | .mul a b d => Sys2Proof.Machine.execMul a b d s
  | .input d => Sys2Proof.Machine.execInput d s
  | .output a => Sys2Proof.Machine.execOutput a s
  | .jumpIfTrue a t => Sys2Proof.Machine.execJumpIfTrue a t s
  | .jumpIfFalse a t => Sys2Proof.Machine.execJumpIfFalse a t s
  | .lessThan a b d => Sys2Proof.Machine.execLessThan a b d s
  | .equals a b d => Sys2Proof.Machine.execEquals a b d s
  | .adjustRelativeBase a => Sys2Proof.Machine.execAdjustRelativeBase a s
  | .halt => Sys2Proof.Machine.execHalt s

end Sys2Proof.Machine
end

