-- ==== Sys2Proof/Machine/Fetch.lean ====
section
/-! DEFINITION. Fetch and decode of one step (`40_engine.md` R80 to R83), and one step of an engine whose `Execute` is given. -/

namespace Sys2Proof.Machine

/-- The operand of slot `i` with mode `m`: `raw_i := MemRead(ovf(pc0 + 1 + i), 1)` (`40_engine.md` R83). -/
def fetchOperand (c : Config) (slot : Nat) (m : Mode) (s : State) : Res Operand :=
  (check (ovf c (s.pc + 1 + slot)) s).bind fun addr s =>
  (memRead c addr s).bind fun raw s =>
  .ok ⟨m, raw⟩ s

/-- The operand words of a decoded header, in slot order (`40_engine.md` R83). -/
def fetchOperands (c : Config) (h : Header) (s : State) : Res Instr :=
  match h with
  | .f0 => .ok .halt s
  | .f1 o m0 => (fetchOperand c 0 m0 s).bind fun a s => .ok (o.instr a) s
  | .f2 o m0 m1 =>
    (fetchOperand c 0 m0 s).bind fun a s =>
    (fetchOperand c 1 m1 s).bind fun b s =>
    .ok (o.instr a b) s
  | .f3 o m0 m1 m2 =>
    (fetchOperand c 0 m0 s).bind fun a s =>
    (fetchOperand c 1 m1 s).bind fun b s =>
    (fetchOperand c 2 m2 s).bind fun d s =>
    .ok (o.instr a b d) s

/-- `DecodeOpcode` and every `DecodeMode` of the fetched word, as a check (`40_engine.md` R82, R83). -/
def checkHeader (w : Int) : Except FaultKind Header :=
  match decodeHeader w with
  | .ok h => .ok h
  | .error e => .error (faultOfDecodeError e)

/-- Fetch and decode: the instruction word, its opcode and modes, then its operand words (`40_engine.md` R80 to R83). -/
def fetchInstr (c : Config) (s : State) : Res Instr :=
  (memRead c s.pc s).bind fun w s =>
  (check (checkHeader w) s).bind fun h s =>
  fetchOperands c h s

/-- `Step()` with the loop's case analysis (`40_engine.md` R80, R91), for a running instance. -/
def fetchAndRun (c : Config) (ex : Instr → State → Host.Outcome State Fault Refusal) (s : State) :
    Host.Outcome State Fault Refusal :=
  match fetchInstr c s with
  | .ok i s1 => ex i s1
  | .raise k s1 => .next (enterFault k s.pc s1)

/-- One iteration of `Run()` (`49_host_interface.md` R164, `40_engine.md` R91): a run call on a `Halted` or `Faulted` instance is
a no-op, on a suspended one it sets `STATUS <- Running`, and then one step is taken. -/
def stepBy (c : Config) (ex : Instr → State → Host.Outcome State Fault Refusal) (s : State) :
    Host.Outcome State Fault Refusal :=
  match s.status with
  | .halted => .next s
  | .faulted => .next s
  | .running => fetchAndRun c ex s
  | .suspendedOnOutput => fetchAndRun c ex (s.setStatus .running)

/-- Where the next instruction is fetched, made fetchable: a stopped instance is set running and a negative `PC` is set to 0
(notes/assumptions/9.md). -/
def readyToFetch (s : State) : State :=
  let running := if s.status = .halted ∨ s.status = .faulted then s.setStatus .running else s
  if s.pc < 0 then running.setPc 0 else running

/-- Words laid where the next instruction is fetched. -/
def placeAtFetch (ws : List Int) (s : State) : State :=
  let r := readyToFetch s
  r.setMem (Memory.place r.pc.toNat ws r.mem)

end Sys2Proof.Machine
end

