-- ==== Sys2Proof/Machine/Step.lean ====
section
/-! DEFINITION. One step of this hardware, and the host's way to lay an instruction where it is fetched. -/

namespace Sys2Proof.Machine

/-- One step: `stepBy` with this hardware's parameters and meanings. -/
def step (s : State) : Host.Outcome State Fault Refusal := stepBy hardware exec s

/-- `s` with the instruction whose bits are `w` stored where the next instruction is fetched. -/
def State.withFetchWord (s : State) (nbits w : Nat) : State := placeAtFetch (tableWords nbits w) s

end Sys2Proof.Machine
end

