-- ==== Sys2Proof/Machine/Engine.lean ====
section
/-! DEFINITION. The engine under any parameters (`00_scope.md` R7): `Execute`, one step, and the two run loops
(`40_engine.md` R91, `49_host_interface.md` R163, R164). -/

namespace Sys2Proof.Machine

/-- `Execute` under parameters `c` (`40_engine.md` R87). `exec` is this under `hardware`. -/
def execWith (c : Config) (i : Instr) (s : State) : Host.Outcome State Fault Refusal :=
  match i with
  | .add a b d => addWith c a b d s
  | .mul a b d => mulWith c a b d s
  | .input d => inputWith c d s
  | .output a => outputWith c a s
  | .jumpIfTrue a t => jumpIfTrueWith c a t s
  | .jumpIfFalse a t => jumpIfFalseWith c a t s
  | .lessThan a b d => lessThanWith c a b d s
  | .equals a b d => equalsWith c a b d s
  | .adjustRelativeBase a => adjustRelativeBaseWith c a s
  | .halt => haltWith c s

/-- One step under parameters `c`. `step` is this under `hardware`. -/
def stepWith (c : Config) (s : State) : Host.Outcome State Fault Refusal := stepBy c (execWith c) s

/-- The instance has stopped for good (`49_host_interface.md` R175). -/
def State.ended (s : State) : Bool := decide (s.status = .halted) || decide (s.status = .faulted)

/-- The loop of `RunUntilOutput` (`40_engine.md` R91) under fuel: `none` says only that the fuel ran out, which proves nothing
about the program (R93). -/
def runLoop (c : Config) : Nat → State → Option State
  | 0, _ => none
  | fuel + 1, s =>
    match stepWith c s with
    | .next t => if t.status = .running then runLoop c fuel t else some t
    | .fault _ => none
    | .refused _ => none

/-- `RunUntilOutput()` under fuel (`40_engine.md` R91): a no-op on an instance that has stopped for good. -/
def runUntilOutput (c : Config) (fuel : Nat) (s : State) : Option State :=
  if s.ended then some s else runLoop c fuel (s.setStatus .running)

/-- `Run()` (`49_host_interface.md` R164): at most `calls` calls of `RunUntilOutput`, each under the same fuel. -/
def runCalls (c : Config) (fuel : Nat) : Nat → State → Option State
  | 0, _ => none
  | calls + 1, s =>
    match runUntilOutput c fuel s with
    | none => none
    | some t => if t.ended then some t else runCalls c fuel calls t

/-- `Run()` under fuel. -/
def run (c : Config) (fuel : Nat) (s : State) : Option State := runCalls c fuel fuel s

/-- `run_until_output` called on `s` returns, leaving `t`. -/
def ReturnsFromRunUntilOutput (c : Config) (s t : State) : Prop := ∃ fuel, runUntilOutput c fuel s = some t

/-- `run_until_output` called on `s` never returns (`40_engine.md` R93). -/
def NeverReturns (c : Config) (s : State) : Prop := ∀ fuel, runUntilOutput c fuel s = none

end Sys2Proof.Machine
end

