-- ==== Sys2Proof/Machine/Transactions.lean ====
section
/-! DEFINITION. The host interface (`49_host_interface.md`): construction, and the transactions on an instance. Each is one
indivisible command with one response, and none overlaps a step (R169). -/

namespace Sys2Proof.Machine

/-- `new(program)` (R160, `10_state.md` R32). -/
def newInstance (c : Config) (program : List Int) : Host.Outcome State Fault Refusal :=
  if program.all (inRange c.wordBits) then
    if withinCapacity program.length c.maxMemWords then .next (State.reset.setMem (Memory.ofProgram program))
    else .refused .programLongerThanMemory
  else .refused .programElementOutOfRange

/-- `set_inputs(values)` (R162). -/
def setInputs (c : Config) (values : List Int) (s : State) : State :=
  if s.status = .faulted then s
  else if withinCapacity (s.iq.length + values.length) c.iqCapacity then s.setIq (s.iq ++ values)
  else enterFault .resourceExhausted s.pc s

/-- `outputs()` (R165). -/
def outputs (s : State) : List Int := s.ol

/-- `get_last_output()` (R166): the state afterwards, and the word or the error. -/
def getLastOutput (s : State) : State × Except FaultKind Int :=
  match s.ol.getLast? with
  | some v => (s, .ok v)
  | none => (enterFault .emptyOutputLog s.pc s, .error .emptyOutputLog)

/-- `memory_snapshot()` (R167): `MEM[0 .. MEM_LEN-1]`. -/
def memorySnapshot (s : State) : List Int := (List.range s.mem.len).map s.mem.word

/-- `status()` (R168): `(STATUS, FAULT_KIND, FAULT_PC)` in their encodings. -/
def statusTriple (s : State) : Nat × Nat × Int := (s.status.code, faultCode s.faultKind, s.faultPc)

/-- A host command to an existing instance. -/
inductive Transaction where
  | setInputs (values : List Int)
  | runUntilOutput
  | run
  | outputs
  | getLastOutput
  | memorySnapshot
  | status
  deriving DecidableEq, Repr

/-- The response to a transaction. -/
inductive Response where
  | none
  | status (s : Status)
  | words (ws : List Int)
  | word (w : Int)
  | error (k : FaultKind)
  | statusTriple (status fault : Nat) (faultPc : Int)
  deriving DecidableEq, Repr

/-- The response of `get_last_output`. -/
def lastOutputResponse : Except FaultKind Int → Response
  | .ok w => .word w
  | .error k => .error k

/-- One transaction under fuel: `none` when a run call has not returned within it (R163, R164). DESIGN CHOICE
(notes/assumptions/19.md): `set_inputs` responds `Response.none` in every case, also when it faults over `IQ_CAPACITY`. -/
def transact (c : Config) (fuel : Nat) (t : Transaction) (s : State) : Option (State × Response) :=
  match t with
  | .setInputs values => some (setInputs c values s, .none)
  | .runUntilOutput => (runUntilOutput c fuel s).map fun s' => (s', .status s'.status)
  | .run => (run c fuel s).map fun s' => (s', .status s'.status)
  | .outputs => some (s, .words (outputs s))
  | .getLastOutput => some ((getLastOutput s).1, lastOutputResponse (getLastOutput s).2)
  | .memorySnapshot => some (s, .words (memorySnapshot s))
  | .status => some (s, .statusTriple (statusTriple s).1 (statusTriple s).2.1 (statusTriple s).2.2)

end Sys2Proof.Machine
end

