-- ==== Sys2Proof/Machine/Composition.lean ====
section
/-! DEFINITION. Host-side composition of instances (`49_host_interface.md` part 3). The Orchestrator is outside the hardware block
(`00_scope.md` R5 a); the two loops are here because the spec writes them out. Instances share nothing (R170): a value moves
only from one instance's log to another's queue, through `getLastOutput` and `setInputs`. -/

namespace Sys2Proof.Machine

/-- How a composition ends. -/
inductive CompositionResult where
  | answer (signal : Int)
  /-- an instance faulted, or could not be made, and the whole composition fails (R173) -/
  | failed
  /-- the fuel ran out, which proves nothing (`40_engine.md` R93) -/
  | outOfFuel
  deriving DecidableEq, Repr

/-- The linear pipeline from a signal on (R171). -/
def pipelineFrom (c : Config) (fuel : Nat) (program : List Int) : List Int → Int → CompositionResult
  | [], signal => .answer signal
  | seed :: seeds, signal =>
    match newInstance c program with
    | .fault _ => .failed
    | .refused _ => .failed
    | .next vm =>
      match run c fuel (setInputs c [seed, signal] vm) with
      | none => .outOfFuel
      | some vm' =>
        match getLastOutput vm' with
        | (last, .ok v) => if last.status = .faulted then .failed else pipelineFrom c fuel program seeds v
        | (_, .error _) => .failed

/-- The linear pipeline (R171). -/
def pipeline (c : Config) (fuel : Nat) (program seeds : List Int) : CompositionResult :=
  pipelineFrom c fuel program seeds 0

/-- One call of the ring's loop on one instance (R172): the instance afterwards and the signal it passes on. -/
def ringCall (c : Config) (fuel : Nat) (signal : Int) (vm : State) : Option (State × Except FaultKind Int) :=
  (runUntilOutput c fuel (setInputs c [signal] vm)).map getLastOutput

/-- The ring's loop (R172): the instances from the current one on (`ahead`), those already called in this round (`behind`, last
first); the instance at the end of `ahead` is the last of the ring. -/
def ringLoop (c : Config) (fuel : Nat) : Nat → List State → List State → Int → CompositionResult
  | 0, _, _, _ => .outOfFuel
  | _ + 1, [], _, _ => .failed
  | calls + 1, vm :: ahead, behind, signal =>
    match ringCall c fuel signal vm with
    | none => .outOfFuel
    | some (_, .error _) => .failed
    | some (vm', .ok v) =>
      if vm'.status = .faulted then .failed
      else match ahead with
        | [] => if vm'.status = .halted then .answer v else ringLoop c fuel calls ((vm' :: behind).reverse) [] v
        | next :: rest => ringLoop c fuel calls (next :: rest) (vm' :: behind) v

/-- The instances of a ring, each with its seed queued; `none` when one cannot be made. -/
def ringInstances (c : Config) (program : List Int) : List Int → Option (List State)
  | [] => some []
  | seed :: seeds =>
    match newInstance c program, ringInstances c program seeds with
    | .next vm, some vms => some (setInputs c [seed] vm :: vms)
    | _, _ => none

/-- The feedback ring (R172). A ring of no instances has no last instance and fails. -/
def ring (c : Config) (fuel : Nat) (program seeds : List Int) : CompositionResult :=
  match ringInstances c program seeds with
  | none => .failed
  | some vms => ringLoop c fuel fuel vms [] 0

end Sys2Proof.Machine
end

