-- ==== Sys2Proof/Machine/GrowthUnit.lean ====
section
/-! DEFINITION. The memory-growth unit as the state machine of `20_memory.md` R53. The engine sees each request as one indivisible
action with the result of R42 (`access`), so the engine's model uses `access` and no `State` holds this unit; that the two
agree is an obligation. -/

namespace Sys2Proof.Machine

/-- One access request `(addr, kind, v)`: a write when `write` holds a word. -/
structure Request where
  addr : Int
  write : Option Int
  deriving DecidableEq, Repr

/-- The unit's states (R53). -/
inductive GrowthPhase where
  | ready
  | check
  | extend (target : Nat)
  | access
  | fault (k : FaultKind)
  deriving DecidableEq, Repr

/-- The unit: its state, the request it serves, the memory, and the word of the last access. -/
structure GrowthUnit where
  phase : GrowthPhase
  request : Request
  mem : Memory
  result : Option Int
  deriving DecidableEq, Repr

/-- `MEM[MEM_LEN] <- 0; MEM_LEN <- MEM_LEN + 1` (R53). -/
def Memory.appendZero (m : Memory) : Memory :=
  { cells := m.cells.filter fun cell => decide (cell.1 < m.len), len := m.len + 1 }

/-- One transition of the unit (R53). -/
def growthStep (c : Config) (u : GrowthUnit) : GrowthUnit :=
  match u.phase with
  | .ready => { u with phase := .check }
  | .check =>
    match checkAddr c u.request.addr with
    | .error k => { u with phase := .fault k }
    | .ok n =>
      if n < u.mem.len then { u with phase := .access }
      else { u with phase := .extend (capLen c (c.grow n u.mem.len)) }
  | .extend target =>
    if u.mem.len < target then { u with mem := u.mem.appendZero } else { u with phase := .access }
  | .access =>
    match u.request.write with
    | none => { u with phase := .ready, result := some (u.mem.word u.request.addr.toNat) }
    | some v =>
      { u with phase := .ready, result := some v,
               mem := { u.mem with cells := putCell u.request.addr.toNat v u.mem.cells } }
  | .fault _ => u

/-- `k` transitions of the unit. -/
def growthRun (c : Config) : Nat → GrowthUnit → GrowthUnit
  | 0, u => u
  | k + 1, u => growthRun c k (growthStep c u)

end Sys2Proof.Machine
end

