-- ==== Sys2Proof/Safety.lean ====
section
/-! DEFINITION. The terms claims are stated in: the legal states, the fault-free runs, and what one state keeps of another. -/

namespace Sys2Proof.Machine

/-- Every word of a list is in the word range (`00_scope.md` R8). -/
def wordsInRange (c : Config) (ws : List Int) : Prop := ∀ w ∈ ws, inRange c.wordBits w = true

/-- The legal states of an instance under parameters `c`: memory in canonical form, every word in range (R8), the fault record
set exactly when `Faulted` (`10_state.md` R26), and each size within its capacity (R27, R28, `20_memory.md` R42). -/
structure State.Legal (c : Config) (s : State) : Prop where
  memWf : s.mem.wf = true
  cells : ∀ cell ∈ s.mem.cells, inRange c.wordBits cell.2 = true
  memLen : withinCapacity s.mem.len c.maxMemWords = true
  pc : inRange c.wordBits s.pc = true
  rb : inRange c.wordBits s.rb = true
  faultPc : inRange c.wordBits s.faultPc = true
  iq : wordsInRange c s.iq
  ol : wordsInRange c s.ol
  iqLen : withinCapacity s.iq.length c.iqCapacity = true
  olLen : withinCapacity s.ol.length c.olCapacity = true
  record : s.status = .faulted ↔ s.faultKind ≠ none
  noRecord : s.faultKind = none → s.faultPc = 0

/-- No fault has happened (`49_host_interface.md` R175: the premise reads `STATUS ≠ Faulted`). -/
def State.noFault (s : State) : Prop := s.status ≠ .faulted

/-- `k` steps of this hardware from `s` lead to `t` with no fault. -/
def SafeRun (k : Nat) (s t : State) : Prop := Sys2Proof.core.run k s = .next t ∧ t.noFault

/-- Every word of memory reads in `t` as in `s` (`Memory.word` is the model's read of one cell). -/
def sameWords (s t : State) : Prop := ∀ a, t.mem.word a = s.mem.word a

/-- Every word of memory but the one at `n` reads in `t` as in `s`. -/
def sameWordsBut (n : Nat) (s t : State) : Prop := ∀ a, a ≠ n → t.mem.word a = s.mem.word a

/-- `t` is `s` but for memory growth: every field but `MEM_LEN` is kept, every word reads the same, and memory did not shrink.
This is what the reads of a step may do (`20_memory.md` R42, R46). -/
structure GrownFrom (s t : State) : Prop where
  words : sameWords s t
  len : s.mem.len ≤ t.mem.len
  pc : t.pc = s.pc
  rb : t.rb = s.rb
  status : t.status = s.status
  faultKind : t.faultKind = s.faultKind
  faultPc : t.faultPc = s.faultPc
  iq : t.iq = s.iq
  ol : t.ol = s.ol

/-- `t` is `s` with the fault `k` at `pc0` taken: `PC`, `RB`, `IQ`, `OL` and every word kept, and the record set
(`40_engine.md` R90, `60_exceptions.md` R194). -/
structure FaultedFrom (k : FaultKind) (pc0 : Int) (s t : State) : Prop where
  words : sameWords s t
  len : s.mem.len ≤ t.mem.len
  pc : t.pc = s.pc
  rb : t.rb = s.rb
  status : t.status = .faulted
  faultKind : t.faultKind = some k
  faultPc : t.faultPc = pc0
  iq : t.iq = s.iq
  ol : t.ol = s.ol

/-- `t` is `s` with the word at `n` set to `v`, `PC` to `npc` and `IQ` to `q`: what an instruction that stores changes. Every
other word and every other field is kept; memory may have grown. -/
structure StoredFrom (n : Nat) (v npc : Int) (q : List Int) (s t : State) : Prop where
  stored : t.mem.word n = v
  words : sameWordsBut n s t
  len : s.mem.len ≤ t.mem.len
  pc : t.pc = npc
  rb : t.rb = s.rb
  status : t.status = s.status
  faultKind : t.faultKind = s.faultKind
  faultPc : t.faultPc = s.faultPc
  iq : t.iq = q
  ol : t.ol = s.ol

/-- `t` is `s` with `PC`, `RB`, `STATUS` and `OL` as given: what an instruction that stores nothing changes. Every word of memory
and every other field is kept; memory may have grown. -/
structure MovedFrom (npc nrb : Int) (st : Status) (log : List Int) (s t : State) : Prop where
  words : sameWords s t
  len : s.mem.len ≤ t.mem.len
  pc : t.pc = npc
  rb : t.rb = nrb
  status : t.status = st
  faultKind : t.faultKind = s.faultKind
  faultPc : t.faultPc = s.faultPc
  iq : t.iq = s.iq
  ol : t.ol = log

/-- The three operands of an F3 instruction resolve, in slot order, to the values `x` and `y` and the write address `n`, and the
reads leave `s2` (`40_engine.md` R85, R86). -/
def ThreeOperandsResolve (a b d : Operand) (s : State) (x y : Int) (n : Nat) (s2 : State) : Prop :=
  ∃ s1, readValue hardware a s = .ok x s1 ∧ readValue hardware b s1 = .ok y s2 ∧ writeAddr hardware d s2 = .ok n s2

/-- Executing `i` in `s` takes the fault `k` and commits nothing (`40_engine.md` R90). -/
def FaultsAs (c : Config) (i : Instr) (s : State) (k : FaultKind) : Prop :=
  ∃ t, execWith c i s = .next t ∧ FaultedFrom k s.pc s t

/-- The four words from `PC` on, as a fetch reads them. -/
def wordsAtPc (s : State) : List Int := (List.range 4).map fun j => s.mem.word (s.pc.toNat + j)

/-- The operand words of the slots below `j` are at addresses that are words and lie below the capacity of memory, so a fetch reads
them (`40_engine.md` R83). -/
def OperandWordsReadable (c : Config) (s : State) (j : Nat) : Prop :=
  ∀ k < j, inRange c.wordBits (s.pc + 1 + k) = true ∧ belowCapacity (s.pc.toNat + 1 + k) c.maxMemWords = true

/-- Two parameter sets that differ in the growth policy alone (`20_memory.md` R43). -/
structure DifferInGrowth (c c' : Config) : Prop where
  wordBits : c'.wordBits = c.wordBits
  overflow : c'.overflow = c.overflow
  maxMemWords : c'.maxMemWords = c.maxMemWords
  iqCapacity : c'.iqCapacity = c.iqCapacity
  olCapacity : c'.olCapacity = c.olCapacity

/-- Two states that differ in `MEM_LEN` alone, as a program sees them: every word of memory and every other field agree. -/
structure AgreeButLen (s t : State) : Prop where
  words : sameWords s t
  pc : t.pc = s.pc
  rb : t.rb = s.rb
  status : t.status = s.status
  faultKind : t.faultKind = s.faultKind
  faultPc : t.faultPc = s.faultPc
  iq : t.iq = s.iq
  ol : t.ol = s.ol

/-- `t` is reached from `s` by steps under parameters `c`. -/
inductive Reaches (c : Config) : State → State → Prop where
  | refl (s : State) : Reaches c s s
  | step {s t u : State} : Reaches c s t → stepWith c t = .next u → Reaches c s u

end Sys2Proof.Machine
end

