-- ==== Sys2Proof/Certificates/Slice0/Obligations.lean ====
section
/-! DEFINITION. The statements for the provers. A hypothesis `s.mem.wf` is the canonical form of memory, which reset has and every
step keeps (`LegalStateKeptByEveryStep`). `c.Admitted` are the parameter values of `00_scope.md` R7; `hardware` is one of them. -/

open Sys2Proof Sys2Proof.Machine

/-! ## Words and overflow -/

/-- `00_scope.md` R12: `ovf` in its three cases. -/
def Obligations.OverflowCheckHasThreeCases : Prop :=
  ∀ (c : Config) (x : Int),
    (inRange c.wordBits x = true → ovf c x = .ok x) ∧
    (inRange c.wordBits x = false → c.overflow = .fault → ovf c x = .error .arithmeticOverflow) ∧
    (inRange c.wordBits x = false → c.overflow = .wrap →
      ovf c x = .ok ((x - wordMin c.wordBits) % ((2 ^ c.wordBits : Nat) : Int) + wordMin c.wordBits))

/-- `41_arithmetic.md` R102: whatever `ovf` answers is a word and agrees with the exact result modulo `2^WORD_BITS`. -/
def Obligations.OverflowCheckAnswersACongruentWord : Prop :=
  ∀ (c : Config) (x y : Int), c.Admitted → ovf c x = .ok y →
    inRange c.wordBits y = true ∧ ((2 ^ c.wordBits : Nat) : Int) ∣ (x - y)

/-! ## Encoding -/

/-- `00_scope.md` R11: decimal digits, and the decoder's answer on a negative word, to which it applies none. -/
def Obligations.DigitIsTheDecimalDigit : Prop :=
  (∀ (w : Int) (k : Nat), 0 ≤ w →
    digit w k = w / (10 : Int) ^ k % 10 ∧ (w < (10 : Int) ^ k → digit w k = 0)) ∧
  (∀ w : Int, w < 0 → decodeHeader w = .error .unknownOpcode)

/-- `40_engine.md` R82: `DecodeOpcode`, with the ten opcodes of R62 in the formats that R63's operand counts give them. -/
def Obligations.OpcodeIsTheLowTwoDigits : Prop :=
  ∀ w : Int,
    (w < 0 → decodeOpcode w = .error .unknownOpcode) ∧
    (0 ≤ w → w % 100 = 1 → decodeOpcode w = .ok (.f3 .add)) ∧
    (0 ≤ w → w % 100 = 2 → decodeOpcode w = .ok (.f3 .mul)) ∧
    (0 ≤ w → w % 100 = 3 → decodeOpcode w = .ok (.f1 .input)) ∧
    (0 ≤ w → w % 100 = 4 → decodeOpcode w = .ok (.f1 .output)) ∧
    (0 ≤ w → w % 100 = 5 → decodeOpcode w = .ok (.f2 .jumpIfTrue)) ∧
    (0 ≤ w → w % 100 = 6 → decodeOpcode w = .ok (.f2 .jumpIfFalse)) ∧
    (0 ≤ w → w % 100 = 7 → decodeOpcode w = .ok (.f3 .lessThan)) ∧
    (0 ≤ w → w % 100 = 8 → decodeOpcode w = .ok (.f3 .equals)) ∧
    (0 ≤ w → w % 100 = 9 → decodeOpcode w = .ok (.f1 .adjustRelativeBase)) ∧
    (0 ≤ w → w % 100 = 99 → decodeOpcode w = .ok .f0) ∧
    (0 ≤ w → w % 100 = 0 ∨ (10 ≤ w % 100 ∧ w % 100 ≤ 98) → decodeOpcode w = .error .unknownOpcode)

/-- `30_encoding.md` R65: digits above the used slots are neither read nor checked, and the rule's four example words. -/
def Obligations.DigitsAboveUsedSlotsIgnored : Prop :=
  (∀ w k : Int, 0 ≤ w → 0 ≤ k → decodeOpcode w = .ok .f0 → decodeHeader (w + k * 100) = decodeHeader w) ∧
  (∀ (w k : Int) (o : Op1), 0 ≤ w → 0 ≤ k → decodeOpcode w = .ok (.f1 o) →
    decodeHeader (w + k * 1000) = decodeHeader w) ∧
  (∀ (w k : Int) (o : Op2), 0 ≤ w → 0 ≤ k → decodeOpcode w = .ok (.f2 o) →
    decodeHeader (w + k * 10000) = decodeHeader w) ∧
  (∀ (w k : Int) (o : Op3), 0 ≤ w → 0 ≤ k → decodeOpcode w = .ok (.f3 o) →
    decodeHeader (w + k * 100000) = decodeHeader w) ∧
  decodeHeader 199 = .ok .f0 ∧ decodeHeader 1099 = .ok .f0 ∧ decodeHeader 100004 = .ok (.f1 .output .position) ∧
  decodeHeader 5001001 = .ok (.f3 .add .position .immediate .position)

/-- `30_encoding.md` R68 c: a mode digit of a used slot outside 0, 1, 2 is rejected, whatever the other digits. -/
def Obligations.BadModeDigitRejected : Prop :=
  ∀ (w : Int) (o : Opcode) (slot : Nat), decodeOpcode w = .ok o →
    slot < (match o with | .f0 => 0 | .f1 _ => 1 | .f2 _ => 2 | .f3 _ => 3) →
    3 ≤ digit w (slot + 2) → decodeHeader w = .error .unknownAddressingMode

/-- `30_encoding.md` R70: the canonical word of every header is the rule's sum, it decodes to that header, and so every accepted
word decodes as some canonical word does. -/
def Obligations.EveryAcceptedWordHasACanonicalWord : Prop :=
  (∀ (o : Op3) (m0 m1 m2 : Mode), encodeHeader (.f3 o m0 m1 m2) =
    opcodeNumber (.f3 o) + 100 * modeDigit m0 + 1000 * modeDigit m1 + 10000 * modeDigit m2) ∧
  (∀ (o : Op2) (m0 m1 : Mode), encodeHeader (.f2 o m0 m1) =
    opcodeNumber (.f2 o) + 100 * modeDigit m0 + 1000 * modeDigit m1) ∧
  (∀ (o : Op1) (m0 : Mode), encodeHeader (.f1 o m0) = opcodeNumber (.f1 o) + 100 * modeDigit m0) ∧
  encodeHeader .f0 = 99 ∧
  (∀ (w : Int) (h : Header), decodeHeader w = .ok h → decodeHeader (encodeHeader h) = decodeHeader w)

/-- `30_encoding.md` R61, R66, R70: decoding what the encoder writes gives the instruction back, whole, with the words after it
left over: every instruction, every mode in every slot, every raw value. -/
def Obligations.DecodeOfEncodeIsTheInstruction : Prop :=
  ∀ (i : Instr) (rest : List Int), decode (encode i ++ rest) = .ok (i, rest)

/-- Words of the spec's own programs (`95_test_vectors.md` V-L1-1, V-L1-2, V-L1-6, V-L2-LT-1) decode to what its listings say. -/
def Obligations.SpecListingsDecode : Prop :=
  decode [1, 0, 0, 0, 99] = .ok (.add ⟨.position, 0⟩ ⟨.position, 0⟩ ⟨.position, 0⟩, [99]) ∧
  decode [204, -1] = .ok (.output ⟨.relative, -1⟩, []) ∧
  decode [1006, 101, 0] = .ok (.jumpIfFalse ⟨.position, 101⟩ ⟨.immediate, 0⟩, []) ∧
  decode [1002, 27, 2, 27] = .ok (.mul ⟨.position, 27⟩ ⟨.immediate, 2⟩ ⟨.position, 27⟩, []) ∧
  decode [1107, -1, 0, 5] = .ok (.lessThan ⟨.immediate, -1⟩ ⟨.immediate, 0⟩ ⟨.position, 5⟩, [])

/-! ## Memory -/

/-- `20_memory.md` R42: `Access`, read and write, in every case, and that `MemRead` and the store of a commit are that procedure.
A read returns the word the memory held (0 beyond the old end), growth changes no word, and a write changes the one cell. -/
def Obligations.AccessChecksGrowsAndMovesOneWord : Prop :=
  ∀ (c : Config) (m : Memory) (addr : Int) (write : Option Int), c.Admitted → m.wf = true →
    (addr < 0 → access c addr write m = .error .negativeAddress) ∧
    (0 ≤ addr → belowCapacity addr.toNat c.maxMemWords = false → access c addr write m = .error .resourceExhausted) ∧
    (0 ≤ addr → belowCapacity addr.toNat c.maxMemWords = true →
      ∃ m', m'.len = (if addr.toNat < m.len then m.len else capLen c (c.grow addr.toNat m.len)) ∧
        addr.toNat < m'.len ∧
        access c addr write m = .ok (m'.word addr.toNat, m') ∧
        (match write with
          | none => m'.word addr.toNat = m.word addr.toNat
          | some v => m'.word addr.toNat = v) ∧
        ∀ a, a ≠ addr.toNat → m'.word a = m.word a) ∧
    (m.len ≤ addr.toNat → m.word addr.toNat = 0) ∧
    (∀ s : State, s.mem = m →
      (∀ v m', access c addr none m = .ok (v, m') → memRead c addr s = .ok v (s.setMem m')) ∧
      (∀ n v w m', writeAddr c ⟨.position, addr⟩ s = .ok n s → access c addr (some v) m = .ok (w, m') →
        s.store c n v = s.setMem m'))

/-- `20_memory.md` R53: the growth unit, started on a request, ends in `FAULT` with the fault that `Access` raises, or is `READY`
again with the memory and the word of `Access`. -/
def Obligations.GrowthUnitRefinesAccess : Prop :=
  ∀ (c : Config) (m : Memory) (r : Request) (old : Option Int), c.Admitted →
    match access c r.addr r.write m with
    | .error k => ∃ n, growthRun c n ⟨.ready, r, m, old⟩ = ⟨.fault k, r, m, old⟩
    | .ok (v, m') => ∃ n, 0 < n ∧ growthRun c n ⟨.ready, r, m, old⟩ = ⟨.ready, r, m', some v⟩

/-- `10_state.md` R32, `49_host_interface.md` R160: construction. Every element of state has the value of R32's table, and a
program with an element outside the word range makes no instance. -/
def Obligations.NewInstanceIsTheResetState : Prop :=
  ∀ (c : Config) (program : List Int), withinCapacity program.length c.maxMemWords = true →
    ((∀ w ∈ program, inRange c.wordBits w = true) →
      ∃ s, newInstance c program = .next s ∧
        (∀ (i : Nat) (h : i < program.length), s.mem.word i = program[i]) ∧
        s.mem.len = program.length ∧ s.pc = 0 ∧ s.rb = 0 ∧ s.status = .running ∧ s.status.code = 0 ∧
        faultCode s.faultKind = 0 ∧ s.faultPc = 0 ∧ s.iq = [] ∧ s.ol = []) ∧
    ((∃ w ∈ program, inRange c.wordBits w = false) →
      newInstance c program = .refused .programElementOutOfRange)

/-! ## Operands -/

/-- `40_engine.md` R85: `value(op)`. A read changes nothing but `MEM_LEN`; the sum of a Relative operand uses `RB` as it stands. -/
def Obligations.ValueOfAnOperand : Prop :=
  ∀ (c : Config) (raw : Int) (s : State), c.Admitted →
    readValue c ⟨.immediate, raw⟩ s = .ok raw s ∧
    readValue c ⟨.position, raw⟩ s = memRead c raw s ∧
    (∀ a, ovf c (raw + s.rb) = .ok a → readValue c ⟨.relative, raw⟩ s = memRead c a s) ∧
    (∀ k, ovf c (raw + s.rb) = .error k → readValue c ⟨.relative, raw⟩ s = .raise k s) ∧
    (∀ a : Int, a < 0 → memRead c a s = .raise .negativeAddress s) ∧
    (∀ a : Int, 0 ≤ a → belowCapacity a.toNat c.maxMemWords = false → memRead c a s = .raise .resourceExhausted s) ∧
    (∀ a : Int, 0 ≤ a → belowCapacity a.toNat c.maxMemWords = true →
      (∃ t, memRead c a s = .ok (s.mem.word a.toNat) t ∧ GrownFrom s t ∧ a.toNat < t.mem.len) ∧
      (s.mem.len ≤ a.toNat → s.mem.word a.toNat = 0))

/-- `40_engine.md` R86: `write-addr(op)`. It leaves the state as it is, and the access at commit cannot fault. -/
def Obligations.WriteAddressOfAnOperand : Prop :=
  ∀ (c : Config) (raw : Int) (s : State),
    writeAddr c ⟨.immediate, raw⟩ s = .raise .invalidWriteTarget s ∧
    writeAddr c ⟨.position, raw⟩ s = check (checkAddr c raw) s ∧
    (∀ a, ovf c (raw + s.rb) = .ok a → writeAddr c ⟨.relative, raw⟩ s = check (checkAddr c a) s) ∧
    (∀ k, ovf c (raw + s.rb) = .error k → writeAddr c ⟨.relative, raw⟩ s = .raise k s) ∧
    (∀ a : Int, a < 0 → checkAddr c a = .error .negativeAddress) ∧
    (∀ a : Int, 0 ≤ a → belowCapacity a.toNat c.maxMemWords = false → checkAddr c a = .error .resourceExhausted) ∧
    (∀ a : Int, 0 ≤ a → belowCapacity a.toNat c.maxMemWords = true → checkAddr c a = .ok a.toNat) ∧
    (∀ (m : Mode) (n : Nat) (v : Int) (t : State), writeAddr c ⟨m, raw⟩ s = .ok n t →
      t = s ∧ ∃ m', access c n (some v) s.mem = .ok (v, m') ∧ s.store c n v = s.setMem m')

/-- `45_relative_base.md` R151: a Relative operand denotes what the Position operand at `RB + raw` denotes, read or written. -/
def Obligations.RelativeDenotesTheCellAtBasePlusRaw : Prop :=
  ∀ (c : Config) (raw : Int) (s : State), inRange c.wordBits (raw + s.rb) = true →
    readValue c ⟨.relative, raw⟩ s = readValue c ⟨.position, raw + s.rb⟩ s ∧
    writeAddr c ⟨.relative, raw⟩ s = writeAddr c ⟨.position, raw + s.rb⟩ s

/-! ## The instructions: what each does when it completes, with its frame -/

/-- `41_arithmetic.md` R100: Add completes when its operands resolve and neither the sum nor the advance overflows. -/
def Obligations.AddStoresTheSum : Prop :=
  ∀ (s s2 : State) (a b d : Operand) (x y : Int) (n : Nat), s.mem.wf = true →
    ThreeOperandsResolve a b d s x y n s2 → inRange 64 (x + y) = true → inRange 64 (s.pc + 4) = true →
    exec (.add a b d) s = .next ((s2.store hardware n (x + y)).setPc (s.pc + 4)) ∧
    StoredFrom n (x + y) (s.pc + 4) s.iq s ((s2.store hardware n (x + y)).setPc (s.pc + 4))

/-- `41_arithmetic.md` R101: Multiply completes when its operands resolve and neither the product nor the advance overflows. -/
def Obligations.MultiplyStoresTheProduct : Prop :=
  ∀ (s s2 : State) (a b d : Operand) (x y : Int) (n : Nat), s.mem.wf = true →
    ThreeOperandsResolve a b d s x y n s2 → inRange 64 (x * y) = true → inRange 64 (s.pc + 4) = true →
    exec (.mul a b d) s = .next ((s2.store hardware n (x * y)).setPc (s.pc + 4)) ∧
    StoredFrom n (x * y) (s.pc + 4) s.iq s ((s2.store hardware n (x * y)).setPc (s.pc + 4))

/-- `42_compare.md` R110: LessThan completes when its operands resolve and the advance does not overflow. -/
def Obligations.LessThanStoresOneOrZero : Prop :=
  ∀ (s s2 : State) (a b d : Operand) (x y : Int) (n : Nat), s.mem.wf = true →
    ThreeOperandsResolve a b d s x y n s2 → inRange 64 (s.pc + 4) = true →
    exec (.lessThan a b d) s = .next ((s2.store hardware n (if x < y then 1 else 0)).setPc (s.pc + 4)) ∧
    StoredFrom n (if x < y then 1 else 0) (s.pc + 4) s.iq s
      ((s2.store hardware n (if x < y then 1 else 0)).setPc (s.pc + 4))

/-- `42_compare.md` R111: Equals completes when its operands resolve and the advance does not overflow. -/
def Obligations.EqualsStoresOneOrZero : Prop :=
  ∀ (s s2 : State) (a b d : Operand) (x y : Int) (n : Nat), s.mem.wf = true →
    ThreeOperandsResolve a b d s x y n s2 → inRange 64 (s.pc + 4) = true →
    exec (.equals a b d) s = .next ((s2.store hardware n (if x = y then 1 else 0)).setPc (s.pc + 4)) ∧
    StoredFrom n (if x = y then 1 else 0) (s.pc + 4) s.iq s
      ((s2.store hardware n (if x = y then 1 else 0)).setPc (s.pc + 4))

/-- `44_io.md` R130: Input completes when its write address resolves, the queue holds a word and the advance does not overflow. -/
def Obligations.InputStoresTheQueueHead : Prop :=
  ∀ (s : State) (d : Operand) (n : Nat) (v : Int) (rest : List Int), s.mem.wf = true →
    writeAddr hardware d s = .ok n s → s.iq = v :: rest → inRange 64 (s.pc + 2) = true →
    exec (.input d) s = .next (((s.setIq rest).store hardware n v).setPc (s.pc + 2)) ∧
    StoredFrom n v (s.pc + 2) rest s (((s.setIq rest).store hardware n v).setPc (s.pc + 2))

/-- `44_io.md` R132, `40_engine.md` R91: Output completes when its operand resolves and the advance does not overflow; it appends
to the log and suspends. That a full log is no premise (R132) is the model's choice of an unbounded log for this hardware
(notes/assumptions/4.md); under a capacity `OutputFaultsInOrder` says where Output stops. -/
def Obligations.OutputAppendsAndSuspends : Prop :=
  ∀ (s r : State) (a : Operand) (v : Int),
    readValue hardware a s = .ok v r → inRange 64 (s.pc + 2) = true →
    exec (.output a) s = .next (((r.appendOl v).setPc (s.pc + 2)).setStatus .suspendedOnOutput) ∧
    MovedFrom (s.pc + 2) s.rb .suspendedOnOutput (s.ol ++ [v]) s
      (((r.appendOl v).setPc (s.pc + 2)).setStatus .suspendedOnOutput)

/-- `43_control.md` R120: JumpIfTrue loads the target, any word, when the condition is not 0, and else advances by 3. -/
def Obligations.JumpIfTrueJumpsOnNonZero : Prop :=
  ∀ (s s1 r : State) (a tg : Operand) (x target : Int),
    readValue hardware a s = .ok x s1 → readValue hardware tg s1 = .ok target r →
    (x ≠ 0 → exec (.jumpIfTrue a tg) s = .next (r.setPc target) ∧
      MovedFrom target s.rb s.status s.ol s (r.setPc target)) ∧
    (x = 0 → inRange 64 (s.pc + 3) = true → exec (.jumpIfTrue a tg) s = .next (r.setPc (s.pc + 3)) ∧
      MovedFrom (s.pc + 3) s.rb s.status s.ol s (r.setPc (s.pc + 3)))

/-- `43_control.md` R121: JumpIfFalse loads the target when the condition is exactly 0, and else advances by 3. -/
def Obligations.JumpIfFalseJumpsOnZero : Prop :=
  ∀ (s s1 r : State) (a tg : Operand) (x target : Int),
    readValue hardware a s = .ok x s1 → readValue hardware tg s1 = .ok target r →
    (x = 0 → exec (.jumpIfFalse a tg) s = .next (r.setPc target) ∧
      MovedFrom target s.rb s.status s.ol s (r.setPc target)) ∧
    (x ≠ 0 → inRange 64 (s.pc + 3) = true → exec (.jumpIfFalse a tg) s = .next (r.setPc (s.pc + 3)) ∧
      MovedFrom (s.pc + 3) s.rb s.status s.ol s (r.setPc (s.pc + 3)))

/-- `45_relative_base.md` R150: AdjustRelativeBase adds its operand, resolved with the old `RB`, to `RB`. -/
def Obligations.AdjustRelativeBaseAddsToRb : Prop :=
  ∀ (s r : State) (a : Operand) (v : Int),
    readValue hardware a s = .ok v r → inRange 64 (s.rb + v) = true → inRange 64 (s.pc + 2) = true →
    exec (.adjustRelativeBase a) s = .next ((r.setRb (s.rb + v)).setPc (s.pc + 2)) ∧
    MovedFrom (s.pc + 2) (s.rb + v) s.status s.ol s ((r.setRb (s.rb + v)).setPc (s.pc + 2))

/-- `43_control.md` R122: Halt. It advances by 1 and stops, changing nothing else (`IQ` and memory with its length are kept); its
one fault is the overflow of the advance; a halted instance takes no further step and run calls on it are no-ops; any word that
ends in 99 is Halt, of one word. -/
def Obligations.HaltStopsForGood : Prop :=
  (∀ s : State, inRange 64 (s.pc + 1) = true → exec .halt s = .next ((s.setPc (s.pc + 1)).setStatus .halted)) ∧
  (∀ s : State, s.status ≠ .faulted → inRange 64 (s.pc + 1) = false →
    exec .halt s = .next { s with status := .faulted, faultKind := some .arithmeticOverflow, faultPc := s.pc }) ∧
  (∀ s : State, s.status = .halted → step s = .next s ∧ ∀ fuel, runUntilOutput hardware fuel s = some s ∧
    run hardware (fuel + 1) s = some s) ∧
  (∀ (w : Int) (rest : List Int), 0 ≤ w → w % 100 = 99 → decode (w :: rest) = .ok (.halt, rest)) ∧
  encode .halt = [99]

/-- `30_encoding.md` R72: what the three pseudo-instructions do. `NOP` only advances, `JMP` only jumps, `MOV` copies a value. -/
def Obligations.PseudoInstructionsDoWhatTheyName : Prop :=
  (∀ s : State, inRange 64 (s.pc + 3) = true →
    exec (.jumpIfTrue ⟨.immediate, 0⟩ ⟨.immediate, 0⟩) s = .next (s.setPc (s.pc + 3))) ∧
  (∀ (s r : State) (tg : Operand) (target : Int), readValue hardware tg s = .ok target r →
    exec (.jumpIfTrue ⟨.immediate, 1⟩ tg) s = .next (r.setPc target)) ∧
  (∀ (s r : State) (a d : Operand) (x : Int) (n : Nat), readValue hardware a s = .ok x r →
    writeAddr hardware d r = .ok n r → inRange 64 x = true → inRange 64 (s.pc + 4) = true →
    exec (.add a ⟨.immediate, 0⟩ d) s = .next ((r.store hardware n x).setPc (s.pc + 4)))

/-! ## The instructions: where each faults, under any parameters -/

/-- `41_arithmetic.md` R100, R101, `42_compare.md` R110, R111, `40_engine.md` R94: the first fault of an F3 instruction, in the
fixed order, with nothing committed. -/
def Obligations.ThreeOperandFaultsInOrder : Prop :=
  ∀ (c : Config) (s : State) (a b d : Operand) (i : Instr), c.Admitted → s.status ≠ .faulted →
    i = .add a b d ∨ i = .mul a b d ∨ i = .lessThan a b d ∨ i = .equals a b d →
    (∀ k s1, readValue c a s = .raise k s1 → FaultsAs c i s k) ∧
    (∀ x s1 k s2, readValue c a s = .ok x s1 → readValue c b s1 = .raise k s2 → FaultsAs c i s k) ∧
    (∀ x y s1 s2 k s3, readValue c a s = .ok x s1 → readValue c b s1 = .ok y s2 → writeAddr c d s2 = .raise k s3 →
      FaultsAs c i s k) ∧
    (∀ x y s1 s2 n, readValue c a s = .ok x s1 → readValue c b s1 = .ok y s2 → writeAddr c d s2 = .ok n s2 →
      c.overflow = .fault →
      (i = .add a b d ∧ inRange c.wordBits (x + y) = false ∨ i = .mul a b d ∧ inRange c.wordBits (x * y) = false ∨
        inRange c.wordBits (s.pc + 4) = false) →
      FaultsAs c i s .arithmeticOverflow)

/-- `43_control.md` R120, R121 (`92_eei_decisions.md` D28): both operands are resolved, taken or not, so a target that cannot be
read faults even when the jump is not taken; the advance of a jump not taken may overflow. -/
def Obligations.JumpFaultsInOrder : Prop :=
  ∀ (c : Config) (s : State) (a tg : Operand) (i : Instr), c.Admitted → s.status ≠ .faulted →
    i = .jumpIfTrue a tg ∨ i = .jumpIfFalse a tg →
    (∀ k s1, readValue c a s = .raise k s1 → FaultsAs c i s k) ∧
    (∀ x s1 k s2, readValue c a s = .ok x s1 → readValue c tg s1 = .raise k s2 → FaultsAs c i s k) ∧
    (∀ x target s1 s2, readValue c a s = .ok x s1 → readValue c tg s1 = .ok target s2 →
      (i = .jumpIfTrue a tg ∧ x = 0 ∨ i = .jumpIfFalse a tg ∧ x ≠ 0) →
      c.overflow = .fault → inRange c.wordBits (s.pc + 3) = false → FaultsAs c i s .arithmeticOverflow)

/-- `44_io.md` R130: the faults of Input in order: the write address, the empty queue, the advance. None pops the queue. -/
def Obligations.InputFaultsInOrder : Prop :=
  ∀ (c : Config) (s : State) (d : Operand), c.Admitted → s.status ≠ .faulted →
    (∀ k s1, writeAddr c d s = .raise k s1 → FaultsAs c (.input d) s k) ∧
    (∀ n, writeAddr c d s = .ok n s → s.iq = [] → FaultsAs c (.input d) s .inputExhausted) ∧
    (∀ n, writeAddr c d s = .ok n s → s.iq ≠ [] → c.overflow = .fault → inRange c.wordBits (s.pc + 2) = false →
      FaultsAs c (.input d) s .arithmeticOverflow)

/-- `44_io.md` R132: the faults of Output in order: the operand, the full log, the advance. None appends. -/
def Obligations.OutputFaultsInOrder : Prop :=
  ∀ (c : Config) (s : State) (a : Operand), c.Admitted → s.status ≠ .faulted →
    (∀ k s1, readValue c a s = .raise k s1 → FaultsAs c (.output a) s k) ∧
    (∀ v s1, readValue c a s = .ok v s1 → belowCapacity s.ol.length c.olCapacity = false →
      FaultsAs c (.output a) s .resourceExhausted) ∧
    (∀ v s1, readValue c a s = .ok v s1 → belowCapacity s.ol.length c.olCapacity = true → c.overflow = .fault →
      inRange c.wordBits (s.pc + 2) = false → FaultsAs c (.output a) s .arithmeticOverflow)

/-- `45_relative_base.md` R150: the faults of AdjustRelativeBase in order: the operand, then the sum or the advance. -/
def Obligations.AdjustRelativeBaseFaultsInOrder : Prop :=
  ∀ (c : Config) (s : State) (a : Operand), c.Admitted → s.status ≠ .faulted →
    (∀ k s1, readValue c a s = .raise k s1 → FaultsAs c (.adjustRelativeBase a) s k) ∧
    (∀ v s1, readValue c a s = .ok v s1 → c.overflow = .fault →
      (inRange c.wordBits (s.rb + v) = false ∨ inRange c.wordBits (s.pc + 2) = false) →
      FaultsAs c (.adjustRelativeBase a) s .arithmeticOverflow)

/-! ## One step -/

/-- The parameters of this hardware have the values `00_scope.md` R7 gives; the three capacities, OPEN there, have the model's
choice, unbounded (notes/assumptions/4.md). They are admitted, and the meanings `exec` and the step of this hardware are those
under them, so what is stated for every admitted parameter set holds of them. -/
def Obligations.ThisHardwareIsOneParameterSet : Prop :=
  hardware.wordBits = 64 ∧ hardware.overflow = .fault ∧
  (∀ addr len, hardware.grow addr len = max (addr + 1) (2 * addr)) ∧
  hardware.maxMemWords = none ∧ hardware.iqCapacity = none ∧ hardware.olCapacity = none ∧
  hardware.Admitted ∧ (∀ i s, exec i s = execWith hardware i s) ∧ (∀ s, step s = stepWith hardware s)

/-- `40_engine.md` R80 to R83, R91: when the words at `PC` decode to `i`, a step of an instance that has not stopped for good is
`exec i` at that state, set running and, at most, grown by the fetch; not even grown when the instruction lies within memory.
Two clauses are the model's: that no capacity bounds the operand words (R83, R94 item 4) is its choice of unbounded memory for
this hardware (notes/assumptions/4.md), and that the step of a suspended instance sets it running is its reading of the loop
(notes/assumptions/12.md). -/
def Obligations.StepRunsTheDecodedInstruction : Prop :=
  ∀ (s : State) (i : Instr) (rest : List Int), s.ended = false → 0 ≤ s.pc →
    inRange 64 (s.pc + (i.width : Int) - 1) = true → decode (wordsAtPc s) = .ok (i, rest) →
    ∃ r, GrownFrom (s.setStatus .running) r ∧
      (s.pc.toNat + i.width ≤ s.mem.len → r = s.setStatus .running) ∧
      step s = exec i r

/-- `40_engine.md` R81 to R83, R94, `20_memory.md` R41: where fetch and decode fault, in the fixed order, under any parameters. Of
the operand words, slot `j` is the first that cannot be read: its address is no word (`ArithmeticOverflow`, or under `wrap`, from
a `PC` that is a word, a negative address), or it is at or beyond the capacity. -/
def Obligations.FetchAndDecodeFaultsInOrder : Prop :=
  ∀ (c : Config) (s : State), c.Admitted → s.ended = false →
    (s.pc < 0 → ∃ t, stepWith c s = .next t ∧ FaultedFrom .negativeAddress s.pc s t) ∧
    (0 ≤ s.pc → belowCapacity s.pc.toNat c.maxMemWords = false →
      ∃ t, stepWith c s = .next t ∧ FaultedFrom .resourceExhausted s.pc s t) ∧
    (0 ≤ s.pc → belowCapacity s.pc.toNat c.maxMemWords = true →
      (decodeHeader (s.mem.word s.pc.toNat) = .error .unknownOpcode →
        ∃ t, stepWith c s = .next t ∧ FaultedFrom .unknownOpcode s.pc s t) ∧
      (decodeHeader (s.mem.word s.pc.toNat) = .error .unknownAddressingMode →
        ∃ t, stepWith c s = .next t ∧ FaultedFrom .unknownAddressingMode s.pc s t) ∧
      (s.mem.len ≤ s.pc.toNat → ∃ t, stepWith c s = .next t ∧ FaultedFrom .unknownOpcode s.pc s t) ∧
      (∀ (h : Header) (j : Nat), decodeHeader (s.mem.word s.pc.toNat) = .ok h → j < h.slots → OperandWordsReadable c s j →
        (c.overflow = .fault → inRange c.wordBits (s.pc + 1 + j) = false →
          ∃ t, stepWith c s = .next t ∧ FaultedFrom .arithmeticOverflow s.pc s t) ∧
        (c.overflow = .wrap → inRange c.wordBits s.pc = true → inRange c.wordBits (s.pc + 1 + j) = false →
          ∃ t, stepWith c s = .next t ∧ FaultedFrom .negativeAddress s.pc s t) ∧
        (inRange c.wordBits (s.pc + 1 + j) = true → belowCapacity (s.pc.toNat + 1 + j) c.maxMemWords = false →
          ∃ t, stepWith c s = .next t ∧ FaultedFrom .resourceExhausted s.pc s t)))

/-- `60_exceptions.md` R197: an instruction may be executed at any time. Under any parameters and in every state, `exec` and a
step answer a next state: no path of the model ends in a fault or a refusal. -/
def Obligations.EveryStepAnswersANextState : Prop :=
  (∀ i s, ∃ t, exec i s = .next t) ∧ (∀ c i s, ∃ t, execWith c i s = .next t) ∧ (∀ c s, ∃ t, stepWith c s = .next t)

/-- `40_engine.md` R90, `60_exceptions.md` R191: a step that faults commits nothing. Whatever the phase and whatever the kind, no
word of memory changes, `PC`, `RB`, `IQ` and `OL` are kept, and the record holds the kind and the address of the step. -/
def Obligations.FaultingStepCommitsNothing : Prop :=
  ∀ (c : Config) (s t : State), c.Admitted → s.status ≠ .faulted → stepWith c s = .next t → t.status = .faulted →
    ∃ k, FaultedFrom k s.pc s t

/-- `40_engine.md` R88: every instruction that does not fault, but for a taken jump, sets `PC` to `ovf(pc0 + width)`; a taken jump
sets it to the value of its target operand. -/
def Obligations.PcAdvancesByTheWidth : Prop :=
  ∀ (c : Config) (i : Instr) (s t : State), c.Admitted → s.status ≠ .faulted → execWith c i s = .next t →
    t.status ≠ .faulted →
    (match i with
      | .jumpIfTrue a tg => ∃ x target s1 s2, readValue c a s = .ok x s1 ∧ readValue c tg s1 = .ok target s2 ∧
          (if x ≠ 0 then t.pc = target else ovf c (s.pc + i.width) = .ok t.pc)
      | .jumpIfFalse a tg => ∃ x target s1 s2, readValue c a s = .ok x s1 ∧ readValue c tg s1 = .ok target s2 ∧
          (if x = 0 then t.pc = target else ovf c (s.pc + i.width) = .ok t.pc)
      | _ => ovf c (s.pc + i.width) = .ok t.pc)

/-- `10_state.md` R30, R23, R24: who writes what. Only AdjustRelativeBase changes `RB`; only Input changes `IQ`; only Output
changes `OL`; only the instructions with a write operand change a word of memory; `STATUS` changes only by Output, Halt or a
fault. -/
def Obligations.EachElementHasItsOneWriter : Prop :=
  ∀ (c : Config) (i : Instr) (s t : State), c.Admitted → execWith c i s = .next t →
    ((∀ a, i ≠ .adjustRelativeBase a) → t.rb = s.rb) ∧
    ((∀ d, i ≠ .input d) → t.iq = s.iq) ∧
    ((∀ a, i ≠ .output a) → t.ol = s.ol) ∧
    (i.writeOperand = none → sameWords s t) ∧
    ((∀ a, i ≠ .output a) → i ≠ .halt → t.status = s.status ∨ t.status = .faulted)

/-- `10_state.md` R21: `MEM_LEN` never decreases. -/
def Obligations.MemoryNeverShrinks : Prop :=
  ∀ (c : Config) (s t : State), c.Admitted → Reaches c s t → s.mem.len ≤ t.mem.len

/-- `30_encoding.md` R66: in a legal state every instruction that is fetched is well formed: its raw values are words. -/
def Obligations.FetchedInstructionIsWellFormed : Prop :=
  ∀ (c : Config) (s r : State) (i : Instr), c.Admitted → s.Legal c → fetchInstr c s = .ok i r →
    i.wf c = true ∧ r.Legal c

/-! ## Invariants -/

/-- `10_state.md` R32: the reset state is legal. -/
def Obligations.ResetStateIsLegal : Prop := State.reset.Legal hardware

/-- Every step keeps a state legal: memory canonical, every word in range (`00_scope.md` R8), the fault record set exactly when
`Faulted` (`10_state.md` R26), every size within its capacity. Under every admitted parameter set, so also for `step`. -/
def Obligations.LegalStateKeptByEveryStep : Prop :=
  (∀ (c : Config) (s t : State), c.Admitted → s.Legal c → stepWith c s = .next t → t.Legal c) ∧
  (∀ s t : State, s.Legal hardware → step s = .next t → t.Legal hardware)

/-- Every transaction keeps a state legal (`49_host_interface.md` R160 to R168). -/
def Obligations.LegalStateKeptByEveryTransaction : Prop :=
  ∀ (c : Config), c.Admitted →
    (∀ program s, newInstance c program = .next s → s.Legal c) ∧
    (∀ fuel tr s t r, (∀ values, tr = Transaction.setInputs values → wordsInRange c values) →
      s.Legal c → transact c fuel tr s = some (t, r) → t.Legal c)

/-- `60_exceptions.md` R195, R202, `40_engine.md` R92: `Halted` and `Faulted` have no outgoing step and a run call leaves them as
they are; no transaction changes a `Faulted` instance. -/
def Obligations.StoppedInstancesStayStopped : Prop :=
  (∀ (c : Config) (s t : State), s.ended = true → Reaches c s t → t = s) ∧
  (∀ (c : Config) (fuel : Nat) (s : State), s.ended = true →
    runUntilOutput c fuel s = some s ∧ run c (fuel + 1) s = some s) ∧
  (∀ (c : Config) (fuel : Nat) (tr : Transaction) (s t : State) (r : Response), s.status = .faulted →
    transact c fuel tr s = some (t, r) → t = s)

/-- `44_io.md` R133, `10_state.md` R28: the output log is append-only. -/
def Obligations.OutputLogIsAppendOnly : Prop :=
  ∀ (c : Config) (s t : State), c.Admitted → Reaches c s t → s.ol <+: t.ol

/-- `44_io.md` R131: the input queue is consumed from the front, each word at most once, none skipped or changed. -/
def Obligations.InputQueueIsConsumedInOrder : Prop :=
  ∀ (c : Config) (s t : State), c.Admitted → Reaches c s t → t.iq <:+ s.iq

/-- `40_engine.md` R92, R89: a step of an instance that has not stopped for good ends in `SuspendedOnOutput` exactly when it
appended one word to the log, and otherwise leaves the log as it was. -/
def Obligations.SuspendsExactlyOnOutput : Prop :=
  ∀ (c : Config) (s t : State), c.Admitted → s.ended = false → stepWith c s = .next t →
    (t.status = .suspendedOnOutput ∧ ∃ v, t.ol = s.ol ++ [v]) ∨ (t.status ≠ .suspendedOnOutput ∧ t.ol = s.ol)

/-- `20_memory.md` R43, R34: a program cannot observe the growth policy. Two instances that differ in `MEM_LEN` and in `GROW`
alone step to states that again differ in `MEM_LEN` alone. -/
def Obligations.GrowthPolicyIsUnobservable : Prop :=
  ∀ (c c' : Config) (s s' t t' : State), c.Admitted → c'.Admitted → DifferInGrowth c c' →
    s.mem.wf = true → s'.mem.wf = true → AgreeButLen s s' →
    stepWith c s = .next t → stepWith c' s' = .next t' → AgreeButLen t t'

/-! ## Faults and the host interface -/

/-- `60_exceptions.md` R194: `EnterFault`. It writes the record and the status and nothing else, once; then no step runs, so no
second fault arises; and the run call in progress returns the faulted instance (the response of a `set_inputs` that faults is the
model's choice, notes/assumptions/19.md). -/
def Obligations.EnterFaultRecordsTheFirstFault : Prop :=
  ∀ (k : FaultKind) (pc : Int) (s : State),
    (s.status ≠ .faulted →
      enterFault k pc s = { s with faultKind := some k, faultPc := pc, status := .faulted }) ∧
    (s.status = .faulted → enterFault k pc s = s ∧ ∀ c, stepWith c s = .next s) ∧
    (∀ (c : Config) (t : State), s.ended = false → stepWith c s = .next t → t.status = .faulted →
      ∀ fuel, runUntilOutput c (fuel + 1) s = some t)

/-- `60_exceptions.md` R190, `10_state.md` R25, R26: what `status()` reports for each status and each fault kind. -/
def Obligations.StatusReportsTheCodes : Prop :=
  ∀ s : State,
    (statusTriple s).1 = (match s.status with | .running => 0 | .suspendedOnOutput => 1 | .halted => 2 | .faulted => 3) ∧
    (statusTriple s).2.1 = (match s.faultKind with
      | none => 0 | some .unknownOpcode => 1 | some .unknownAddressingMode => 2 | some .invalidWriteTarget => 3
      | some .inputExhausted => 4 | some .emptyOutputLog => 5 | some .negativeAddress => 6
      | some .arithmeticOverflow => 7 | some .resourceExhausted => 8) ∧
    (statusTriple s).2.2 = s.faultPc

/-- `49_host_interface.md` R162: `set_inputs`, in every status; without a capacity it does not fault; what is queued in a halted
instance is never consumed. -/
def Obligations.SetInputsQueuesInOrder : Prop :=
  ∀ (c : Config) (values : List Int) (s : State),
    (s.status = .faulted → setInputs c values s = s) ∧
    (s.status ≠ .faulted → withinCapacity (s.iq.length + values.length) c.iqCapacity = true →
      setInputs c values s = s.setIq (s.iq ++ values)) ∧
    (s.status ≠ .faulted → withinCapacity (s.iq.length + values.length) c.iqCapacity = false →
      setInputs c values s =
        { s with faultKind := some .resourceExhausted, faultPc := s.pc, status := .faulted }) ∧
    (s.status ≠ .faulted → c.iqCapacity = none → setInputs c values s = s.setIq (s.iq ++ values)) ∧
    (s.status = .halted → ∀ t, Reaches c (setInputs c values s) t → t.iq = (setInputs c values s).iq)

/-- `49_host_interface.md` R166: `get_last_output`. -/
def Obligations.GetLastOutputReadsTheNewestEntry : Prop :=
  ∀ (s : State),
    (∀ log v, s.ol = log ++ [v] → getLastOutput s = (s, .ok v)) ∧
    (s.ol = [] → s.status ≠ .faulted → getLastOutput s =
      ({ s with faultKind := some .emptyOutputLog, faultPc := s.pc, status := .faulted }, .error .emptyOutputLog)) ∧
    (s.ol = [] → s.status = .faulted → getLastOutput s = (s, .error .emptyOutputLog))

/-- `49_host_interface.md` R165, R167, R168: the reads. They change no state; the snapshot is every cell below `MEM_LEN`. -/
def Obligations.HostReadsChangeNothing : Prop :=
  ∀ (c : Config) (fuel : Nat) (s : State),
    transact c fuel .outputs s = some (s, .words s.ol) ∧
    (∃ ws, transact c fuel .memorySnapshot s = some (s, .words ws) ∧ ws.length = s.mem.len ∧
      ∀ (a : Nat) (h : a < ws.length), ws[a] = s.mem.word a) ∧
    transact c fuel .status s = some (s, .statusTriple s.status.code (faultCode s.faultKind) s.faultPc)

/-- `44_io.md` R134: a call of `run_until_output` that returns on an instance that had not stopped for good appends exactly one
entry if it returns `SuspendedOnOutput`, and none if it returns `Halted` or `Faulted`. -/
def Obligations.OneOutputPerRunUntilOutput : Prop :=
  ∀ (c : Config) (fuel : Nat) (s t : State), c.Admitted → s.ended = false → runUntilOutput c fuel s = some t →
    (t.status = .suspendedOnOutput ∧ ∃ v, t.ol = s.ol ++ [v]) ∨
    ((t.status = .halted ∨ t.status = .faulted) ∧ t.ol = s.ol)

/-- `49_host_interface.md` R164: a `run` call that returns leaves the instance `Halted` or `Faulted`, with every output kept. -/
def Obligations.RunReturnsOnlyWhenEnded : Prop :=
  ∀ (c : Config) (fuel : Nat) (s t : State), c.Admitted → run c fuel s = some t → t.ended = true ∧ s.ol <+: t.ol

/-- `40_engine.md` R96: a call that returns has exactly one result; the fuel of the model decides nothing but whether it is seen. -/
def Obligations.RunResultIsUnique : Prop :=
  ∀ (c : Config) (s t t' : State),
    ReturnsFromRunUntilOutput c s t → ReturnsFromRunUntilOutput c s t' → t = t'

/-- `40_engine.md` R93, `43_control.md` R120: the one-instruction loop. `JT #x, #pc0` at `pc0`, with `x` not 0, never returns. That no
capacity of memory lets the fetch fault is the model's choice for this hardware (notes/assumptions/4.md). -/
def Obligations.SelfJumpNeverReturns : Prop :=
  ∀ (s : State) (x : Int) (rest : List Int), s.ended = false → 0 ≤ s.pc → inRange 64 (s.pc + 2) = true → x ≠ 0 →
    decode (wordsAtPc s) = .ok (.jumpIfTrue ⟨.immediate, x⟩ ⟨.immediate, s.pc⟩, rest) → NeverReturns hardware s

/-- `49_host_interface.md` R173: in a pipeline and in a ring, an instance that faults in its turn makes the composition fail. -/
def Obligations.FaultFailsTheComposition : Prop :=
  (∀ (c : Config) (fuel : Nat) (program seeds : List Int) (seed signal : Int) (vm vm' : State),
    newInstance c program = .next vm → run c fuel (setInputs c [seed, signal] vm) = some vm' → vm'.status = .faulted →
    pipelineFrom c fuel program (seed :: seeds) signal = .failed) ∧
  (∀ (c : Config) (fuel calls : Nat) (ahead behind : List State) (signal : Int) (vm vm' : State),
    runUntilOutput c fuel (setInputs c [signal] vm) = some vm' → vm'.status = .faulted →
    ringLoop c fuel (calls + 1) (vm :: ahead) behind signal = .failed)
end

