-- ==== Sys2Proof/Laws/Decode.lean ====
section
/-! SUPPORT. The decoder case by case, and the decoder on the encoder's words. -/

namespace Sys2Proof

@[simp] theorem ok_bind {α β : Type} (a : α) (f : α → Except DecodeError β) : (Except.ok a >>= f) = f a := rfl

@[simp] theorem error_bind {α β : Type} (e : DecodeError) (f : α → Except DecodeError β) :
    ((Except.error e : Except DecodeError α) >>= f) = .error e := rfl

/-- The opcode map as a chain of tests (`30_encoding.md` R62). -/
theorem opcodeOfNumber_eq (n : Int) : opcodeOfNumber n =
    if n = 1 then some (.f3 .add) else if n = 2 then some (.f3 .mul) else if n = 3 then some (.f1 .input)
    else if n = 4 then some (.f1 .output) else if n = 5 then some (.f2 .jumpIfTrue)
    else if n = 6 then some (.f2 .jumpIfFalse) else if n = 7 then some (.f3 .lessThan)
    else if n = 8 then some (.f3 .equals) else if n = 9 then some (.f1 .adjustRelativeBase)
    else if n = 99 then some .f0 else none := rfl

/-- No two rows of the opcode map share a number (R62). -/
theorem opcodeTable_numbers_distinct : (opcodeTable.map (·.1)).Nodup := by decide

/-- A mode digit is one of three, or rejected (`40_engine.md` R83). -/
theorem decodeMode_cases (w : Int) (slot : Nat) :
    (∃ m, decodeMode w slot = .ok m) ∨ decodeMode w slot = .error .unknownAddressingMode := by
  unfold decodeMode modeOfDigit
  split_ifs <;> simp

/-- The opcode is decided by the low two digits (R82). -/
theorem decodeOpcode_congr {w w' : Int} (h : 0 ≤ w) (h' : 0 ≤ w') (e : w % 100 = w' % 100) :
    decodeOpcode w' = decodeOpcode w := by
  unfold decodeOpcode
  rw [if_neg (by omega), if_neg (by omega), e]

theorem decodeHeader_f0 {w : Int} (h : decodeOpcode w = .ok .f0) : decodeHeader w = .ok .f0 := by
  simp [decodeHeader, h, pure, Except.pure]

theorem decodeHeader_f1 {w : Int} {o : Op1} (h : decodeOpcode w = .ok (.f1 o)) :
    decodeHeader w = (decodeMode w 0 >>= fun m0 => .ok (.f1 o m0)) := by
  simp only [decodeHeader, h, ok_bind, pure, Except.pure]

theorem decodeHeader_f2 {w : Int} {o : Op2} (h : decodeOpcode w = .ok (.f2 o)) :
    decodeHeader w = (decodeMode w 0 >>= fun m0 => decodeMode w 1 >>= fun m1 => .ok (.f2 o m0 m1)) := by
  simp only [decodeHeader, h, ok_bind, pure, Except.pure]

theorem decodeHeader_f3 {w : Int} {o : Op3} (h : decodeOpcode w = .ok (.f3 o)) :
    decodeHeader w = (decodeMode w 0 >>= fun m0 => decodeMode w 1 >>= fun m1 => decodeMode w 2 >>= fun m2 =>
      .ok (.f3 o m0 m1 m2)) := by
  simp only [decodeHeader, h, ok_bind, pure, Except.pure]

theorem decodeHeader_error {w : Int} {e : DecodeError} (h : decodeOpcode w = .error e) : decodeHeader w = .error e := by
  simp only [decodeHeader, h, error_bind]

/-- The decoder rejects an instruction word with one of two errors (R68 a to c). -/
theorem decodeHeader_error_cases {w : Int} {e : DecodeError} (h : decodeHeader w = .error e) :
    e = .unknownOpcode ∨ e = .unknownAddressingMode := by
  cases ho : decodeOpcode w with
  | error e' =>
    rw [decodeHeader_error ho] at h
    cases h
    unfold decodeOpcode at ho
    split at ho
    · simp_all
    · split at ho <;> simp_all
  | ok o =>
    have m0 := decodeMode_cases w 0
    have m1 := decodeMode_cases w 1
    have m2 := decodeMode_cases w 2
    cases o with
    | f0 => simp [decodeHeader_f0 ho] at h
    | f1 o => rw [decodeHeader_f1 ho] at h; rcases m0 with ⟨_, h0⟩ | h0 <;> simp_all
    | f2 o =>
      rw [decodeHeader_f2 ho] at h
      rcases m0 with ⟨_, h0⟩ | h0 <;> rcases m1 with ⟨_, h1⟩ | h1 <;> simp_all
    | f3 o =>
      rw [decodeHeader_f3 ho] at h
      rcases m0 with ⟨_, h0⟩ | h0 <;> rcases m1 with ⟨_, h1⟩ | h1 <;> rcases m2 with ⟨_, h2⟩ | h2 <;> simp_all

/-- A digit does not see what is added above it (`30_encoding.md` R65). -/
theorem digit_add_above (w k : Int) {m n : Nat} (h : n < m) : digit (w + k * 10 ^ m) n = digit w n := by
  obtain ⟨d, rfl⟩ : ∃ d, m = n + 1 + d := ⟨m - n - 1, by omega⟩
  have e : w + k * 10 ^ (n + 1 + d) = w + (k * 10 ^ d * 10) * ((10 ^ n : Nat) : Int) := by push_cast; ring
  unfold digit
  rw [e, Int.add_mul_ediv_right _ _ (by positivity)]
  simp

end Sys2Proof
end

