-- ==== Sys2Proof/Laws/State.lean ====
section
/-! SUPPORT. One lemma per field per update of `State`, and what `store` and `enterFault` do to each field. -/

namespace Sys2Proof.Machine

variable (s : State)

@[simp] theorem State.setMem_mem (m : Memory) : (s.setMem m).mem = m := rfl
@[simp] theorem State.setMem_pc (m : Memory) : (s.setMem m).pc = s.pc := rfl
@[simp] theorem State.setMem_rb (m : Memory) : (s.setMem m).rb = s.rb := rfl
@[simp] theorem State.setMem_status (m : Memory) : (s.setMem m).status = s.status := rfl
@[simp] theorem State.setMem_faultKind (m : Memory) : (s.setMem m).faultKind = s.faultKind := rfl
@[simp] theorem State.setMem_faultPc (m : Memory) : (s.setMem m).faultPc = s.faultPc := rfl
@[simp] theorem State.setMem_iq (m : Memory) : (s.setMem m).iq = s.iq := rfl
@[simp] theorem State.setMem_ol (m : Memory) : (s.setMem m).ol = s.ol := rfl

@[simp] theorem State.setPc_mem (v : Int) : (s.setPc v).mem = s.mem := rfl
@[simp] theorem State.setPc_pc (v : Int) : (s.setPc v).pc = v := rfl
@[simp] theorem State.setPc_rb (v : Int) : (s.setPc v).rb = s.rb := rfl
@[simp] theorem State.setPc_status (v : Int) : (s.setPc v).status = s.status := rfl
@[simp] theorem State.setPc_faultKind (v : Int) : (s.setPc v).faultKind = s.faultKind := rfl
@[simp] theorem State.setPc_faultPc (v : Int) : (s.setPc v).faultPc = s.faultPc := rfl
@[simp] theorem State.setPc_iq (v : Int) : (s.setPc v).iq = s.iq := rfl
@[simp] theorem State.setPc_ol (v : Int) : (s.setPc v).ol = s.ol := rfl

@[simp] theorem State.setRb_mem (v : Int) : (s.setRb v).mem = s.mem := rfl
@[simp] theorem State.setRb_pc (v : Int) : (s.setRb v).pc = s.pc := rfl
@[simp] theorem State.setRb_rb (v : Int) : (s.setRb v).rb = v := rfl
@[simp] theorem State.setRb_status (v : Int) : (s.setRb v).status = s.status := rfl
@[simp] theorem State.setRb_faultKind (v : Int) : (s.setRb v).faultKind = s.faultKind := rfl
@[simp] theorem State.setRb_faultPc (v : Int) : (s.setRb v).faultPc = s.faultPc := rfl
@[simp] theorem State.setRb_iq (v : Int) : (s.setRb v).iq = s.iq := rfl
@[simp] theorem State.setRb_ol (v : Int) : (s.setRb v).ol = s.ol := rfl

@[simp] theorem State.setStatus_mem (v : Status) : (s.setStatus v).mem = s.mem := rfl
@[simp] theorem State.setStatus_pc (v : Status) : (s.setStatus v).pc = s.pc := rfl
@[simp] theorem State.setStatus_rb (v : Status) : (s.setStatus v).rb = s.rb := rfl
@[simp] theorem State.setStatus_status (v : Status) : (s.setStatus v).status = v := rfl
@[simp] theorem State.setStatus_faultKind (v : Status) : (s.setStatus v).faultKind = s.faultKind := rfl
@[simp] theorem State.setStatus_faultPc (v : Status) : (s.setStatus v).faultPc = s.faultPc := rfl
@[simp] theorem State.setStatus_iq (v : Status) : (s.setStatus v).iq = s.iq := rfl
@[simp] theorem State.setStatus_ol (v : Status) : (s.setStatus v).ol = s.ol := rfl

@[simp] theorem State.setIq_mem (q : List Int) : (s.setIq q).mem = s.mem := rfl
@[simp] theorem State.setIq_pc (q : List Int) : (s.setIq q).pc = s.pc := rfl
@[simp] theorem State.setIq_rb (q : List Int) : (s.setIq q).rb = s.rb := rfl
@[simp] theorem State.setIq_status (q : List Int) : (s.setIq q).status = s.status := rfl
@[simp] theorem State.setIq_faultKind (q : List Int) : (s.setIq q).faultKind = s.faultKind := rfl
@[simp] theorem State.setIq_faultPc (q : List Int) : (s.setIq q).faultPc = s.faultPc := rfl
@[simp] theorem State.setIq_iq (q : List Int) : (s.setIq q).iq = q := rfl
@[simp] theorem State.setIq_ol (q : List Int) : (s.setIq q).ol = s.ol := rfl

@[simp] theorem State.appendOl_mem (v : Int) : (s.appendOl v).mem = s.mem := rfl
@[simp] theorem State.appendOl_pc (v : Int) : (s.appendOl v).pc = s.pc := rfl
@[simp] theorem State.appendOl_rb (v : Int) : (s.appendOl v).rb = s.rb := rfl
@[simp] theorem State.appendOl_status (v : Int) : (s.appendOl v).status = s.status := rfl
@[simp] theorem State.appendOl_faultKind (v : Int) : (s.appendOl v).faultKind = s.faultKind := rfl
@[simp] theorem State.appendOl_faultPc (v : Int) : (s.appendOl v).faultPc = s.faultPc := rfl
@[simp] theorem State.appendOl_iq (v : Int) : (s.appendOl v).iq = s.iq := rfl
@[simp] theorem State.appendOl_ol (v : Int) : (s.appendOl v).ol = s.ol ++ [v] := rfl

variable (c : Config) (n : Nat) (v : Int)

@[simp] theorem State.store_mem : (s.store c n v).mem = s.mem.store c n v := rfl
@[simp] theorem State.store_pc : (s.store c n v).pc = s.pc := rfl
@[simp] theorem State.store_rb : (s.store c n v).rb = s.rb := rfl
@[simp] theorem State.store_status : (s.store c n v).status = s.status := rfl
@[simp] theorem State.store_faultKind : (s.store c n v).faultKind = s.faultKind := rfl
@[simp] theorem State.store_faultPc : (s.store c n v).faultPc = s.faultPc := rfl
@[simp] theorem State.store_iq : (s.store c n v).iq = s.iq := rfl
@[simp] theorem State.store_ol : (s.store c n v).ol = s.ol := rfl

variable (k : FaultKind) (pc : Int)

@[simp] theorem enterFault_mem : (enterFault k pc s).mem = s.mem := by
  unfold enterFault; split <;> rfl
@[simp] theorem enterFault_pc : (enterFault k pc s).pc = s.pc := by
  unfold enterFault; split <;> rfl
@[simp] theorem enterFault_rb : (enterFault k pc s).rb = s.rb := by
  unfold enterFault; split <;> rfl
@[simp] theorem enterFault_iq : (enterFault k pc s).iq = s.iq := by
  unfold enterFault; split <;> rfl
@[simp] theorem enterFault_ol : (enterFault k pc s).ol = s.ol := by
  unfold enterFault; split <;> rfl

/-- A fault taken: `STATUS` is `Faulted` (R194). -/
@[simp] theorem enterFault_status : (enterFault k pc s).status = .faulted := by
  unfold enterFault; split <;> simp_all

/-- The first fault is recorded whole (R194). -/
theorem enterFault_of_not_faulted (h : s.status ≠ .faulted) :
    enterFault k pc s = { s with status := .faulted, faultKind := some k, faultPc := pc } := if_neg h

/-- A later fault leaves the state as it is (R194). -/
theorem enterFault_of_faulted (h : s.status = .faulted) : enterFault k pc s = s := if_pos h

/-- Setting the status a state already has changes nothing. -/
theorem State.setStatus_self {st : Status} (h : s.status = st) : s.setStatus st = s := by
  subst h; rfl

end Sys2Proof.Machine
end

