-- ==== Sys2Proof/Laws/Memory.lean ====
section
/-! SUPPORT. Memory: reads after writes, reads after growth, and that every memory operation keeps the canonical form. -/

namespace Sys2Proof.Machine

/-! ## Lists of cells -/

/-- A read of another address does not see a write. -/
theorem lookupCell_putCell_ne {a b : Nat} (h : b ≠ a) (v : Int) (cells : List (Nat × Int)) :
    lookupCell b (putCell a v cells) = lookupCell b cells := by
  induction cells with
  | nil => unfold putCell; split <;> simp [lookupCell, h]
  | cons cell rest ih =>
    obtain ⟨e, u⟩ := cell
    simp only [putCell]
    split_ifs with h1 h2 h3 h4 <;> simp only [lookupCell]
    · rw [if_neg h]
    · subst h3; rw [if_neg h]
    · subst h3; simp [h]
    · rw [ih]

theorem cellsWf_cons {hi lo e : Nat} {u : Int} {rest : List (Nat × Int)} :
    cellsWf hi lo ((e, u) :: rest) = true ↔ lo ≤ e ∧ e < hi ∧ u ≠ 0 ∧ cellsWf hi (e + 1) rest = true := by
  simp [cellsWf, and_assoc]

/-- Below the first listed address nothing is listed. -/
theorem lookupCell_below {hi lo a : Nat} {cells : List (Nat × Int)} (h : cellsWf hi lo cells = true) (ha : a < lo) :
    lookupCell a cells = 0 := by
  induction cells generalizing lo with
  | nil => rfl
  | cons cell rest ih =>
    obtain ⟨e, u⟩ := cell
    obtain ⟨h1, _, _, h4⟩ := cellsWf_cons.1 h
    rw [lookupCell, if_neg (by omega)]
    exact ih h4 (by omega)

/-- A read of the address written gives the word written. -/
theorem lookupCell_putCell_self {hi lo a : Nat} (v : Int) {cells : List (Nat × Int)} (h : cellsWf hi lo cells = true) :
    lookupCell a (putCell a v cells) = v := by
  induction cells generalizing lo with
  | nil => unfold putCell; split <;> simp_all [lookupCell]
  | cons cell rest ih =>
    obtain ⟨e, u⟩ := cell
    obtain ⟨_, _, _, h4⟩ := cellsWf_cons.1 h
    simp only [putCell]
    split_ifs with h1 h2 h3 h5
    · rw [lookupCell, if_neg (by omega), lookupCell_below h4 (by omega), h2]
    · simp [lookupCell]
    · rw [h5]; exact lookupCell_below h4 (by omega)
    · simp [lookupCell]
    · rw [lookupCell, if_neg h3]; exact ih h4

theorem cellsWf_mono {hi hi' lo : Nat} {cells : List (Nat × Int)} (hle : hi ≤ hi') (h : cellsWf hi lo cells = true) :
    cellsWf hi' lo cells = true := by
  induction cells generalizing lo with
  | nil => rfl
  | cons cell rest ih =>
    obtain ⟨e, u⟩ := cell
    obtain ⟨h1, h2, h3, h4⟩ := cellsWf_cons.1 h
    exact cellsWf_cons.2 ⟨h1, by omega, h3, ih h4⟩

theorem cellsWf_lower {hi lo lo' : Nat} {cells : List (Nat × Int)} (hle : lo' ≤ lo) (h : cellsWf hi lo cells = true) :
    cellsWf hi lo' cells = true := by
  cases cells with
  | nil => rfl
  | cons cell rest =>
    obtain ⟨e, u⟩ := cell
    obtain ⟨h1, h2, h3, h4⟩ := cellsWf_cons.1 h
    exact cellsWf_cons.2 ⟨by omega, h2, h3, h4⟩

/-- A write keeps the canonical form of the cells. -/
theorem cellsWf_putCell {hi lo a : Nat} (v : Int) {cells : List (Nat × Int)} (h : cellsWf hi lo cells = true)
    (hlo : lo ≤ a) (hhi : a < hi) : cellsWf hi lo (putCell a v cells) = true := by
  induction cells generalizing lo with
  | nil =>
    unfold putCell
    split
    · rfl
    · exact cellsWf_cons.2 ⟨hlo, hhi, by assumption, rfl⟩
  | cons cell rest ih =>
    obtain ⟨e, u⟩ := cell
    obtain ⟨h1, h2, h3, h4⟩ := cellsWf_cons.1 h
    simp only [putCell]
    split_ifs with g1 g2 g3 g4
    · exact h
    · exact cellsWf_cons.2 ⟨hlo, hhi, g2, cellsWf_cons.2 ⟨g1, h2, h3, h4⟩⟩
    · exact cellsWf_lower (by omega) h4
    · exact cellsWf_cons.2 ⟨hlo, hhi, g4, cellsWf_lower (by omega) (g3 ▸ h4)⟩
    · exact cellsWf_cons.2 ⟨h1, h2, h3, ih h4 (by omega)⟩

/-- The cells below `n`, of which a canonical list of length `n` holds no others. -/
theorem filter_below_of_wf {hi lo : Nat} {cells : List (Nat × Int)} (h : cellsWf hi lo cells = true) :
    (cells.filter fun cell => decide (cell.1 < hi)) = cells := by
  induction cells generalizing lo with
  | nil => rfl
  | cons cell rest ih =>
    obtain ⟨e, u⟩ := cell
    obtain ⟨_, h2, _, h4⟩ := cellsWf_cons.1 h
    rw [List.filter_cons_of_pos (by simpa using h2), ih h4]

theorem lookupCell_filter (n a : Nat) (cells : List (Nat × Int)) :
    lookupCell a (cells.filter fun cell => decide (cell.1 < n)) = if a < n then lookupCell a cells else 0 := by
  induction cells with
  | nil => simp [lookupCell]
  | cons cell rest ih =>
    obtain ⟨e, u⟩ := cell
    by_cases he : e < n
    · rw [List.filter_cons_of_pos (by simpa using he)]
      simp only [lookupCell, ih]
      split_ifs <;> first | rfl | omega
    · rw [List.filter_cons_of_neg (by simpa using he), ih]
      simp only [lookupCell]
      split_ifs <;> first | rfl | omega

theorem mem_putCell {a : Nat} {v : Int} {cells : List (Nat × Int)} {cell : Nat × Int}
    (h : cell ∈ putCell a v cells) : cell = (a, v) ∨ cell ∈ cells := by
  induction cells with
  | nil => unfold putCell at h; split at h <;> simp_all
  | cons head rest ih =>
    obtain ⟨e, u⟩ := head
    simp only [putCell] at h
    split_ifs at h <;> simp only [List.mem_cons] at h ⊢ <;> tauto

/-! ## Growth -/

/-- The length after growth covers the address and never shrinks (`20_memory.md` R42, R43). -/
theorem capLen_grow_ge {c : Config} (hc : c.Admitted) {n len : Nat} (h : len ≤ n)
    (hn : belowCapacity n c.maxMemWords = true) : n + 1 ≤ capLen c (c.grow n len) := by
  have := hc.growLaw n len h
  unfold capLen
  cases hm : c.maxMemWords with
  | none => exact this
  | some cap =>
    have : n < cap := by simpa [belowCapacity, hm] using hn
    simp only
    omega

theorem reach_len_ge {c : Config} (hc : c.Admitted) {n : Nat} {m : Memory}
    (hn : belowCapacity n c.maxMemWords = true) : n < (m.reach c n).len ∧ m.len ≤ (m.reach c n).len := by
  unfold Memory.reach
  split
  · exact ⟨by assumption, le_refl _⟩
  · have := capLen_grow_ge hc (n := n) (len := m.len) (by omega) hn
    exact ⟨by simp only; omega, by simp only; omega⟩

/-- No read sees growth: every word reads as before (`20_memory.md` R42, R54). -/
theorem reach_word {c : Config} (hc : c.Admitted) {n : Nat} {m : Memory}
    (hn : belowCapacity n c.maxMemWords = true) (a : Nat) : (m.reach c n).word a = m.word a := by
  have hlen := (reach_len_ge hc (m := m) hn).2
  unfold Memory.reach at *
  split
  · rfl
  · rename_i h
    rw [if_neg h] at hlen
    simp only [Memory.word, lookupCell_filter] at *
    split_ifs <;> first | rfl | omega

/-- Growth keeps the canonical form. -/
theorem reach_wf {c : Config} (hc : c.Admitted) {n : Nat} {m : Memory}
    (hn : belowCapacity n c.maxMemWords = true) (h : m.wf = true) : (m.reach c n).wf = true := by
  have hlen := (reach_len_ge hc (m := m) hn).2
  unfold Memory.wf at *
  refine cellsWf_mono hlen ?_
  unfold Memory.reach
  split
  · exact h
  · rw [filter_below_of_wf h]; exact h

theorem reach_cells {c : Config} {n : Nat} {m : Memory} {cell : Nat × Int} (h : cell ∈ (m.reach c n).cells) :
    cell ∈ m.cells := by
  unfold Memory.reach at h
  split at h
  · exact h
  · exact (List.mem_filter.1 h).1

theorem withinCapacity_reach {c : Config} {n : Nat} {m : Memory} (h : withinCapacity m.len c.maxMemWords = true) :
    withinCapacity (m.reach c n).len c.maxMemWords = true := by
  unfold Memory.reach
  split
  · exact h
  · simp only [capLen]
    cases c.maxMemWords with
    | none => rfl
    | some cap => simp [withinCapacity]

/-! ## The store of a commit -/

/-- A read of the cell stored to gives the word stored. -/
theorem store_word_self {c : Config} (hc : c.Admitted) {n : Nat} {m : Memory} (v : Int)
    (hn : belowCapacity n c.maxMemWords = true) (h : m.wf = true) : (m.store c n v).word n = v := by
  have hlen := (reach_len_ge hc (m := m) hn).1
  have hwf : cellsWf _ 0 _ = true := reach_wf hc hn h
  simp only [Memory.word, Memory.store, if_pos hlen, lookupCell_putCell_self v hwf]

/-- A store leaves every other word alone. -/
theorem store_word_ne {c : Config} (hc : c.Admitted) {n a : Nat} {m : Memory} (v : Int)
    (hn : belowCapacity n c.maxMemWords = true) (ha : a ≠ n) : (m.store c n v).word a = m.word a := by
  rw [← reach_word hc (m := m) hn a]
  simp only [Memory.word, Memory.store, lookupCell_putCell_ne ha]

/-- A store keeps the canonical form. -/
theorem store_wf {c : Config} (hc : c.Admitted) {n : Nat} {m : Memory} (v : Int)
    (hn : belowCapacity n c.maxMemWords = true) (h : m.wf = true) : (m.store c n v).wf = true :=
  cellsWf_putCell v (reach_wf hc hn h) (Nat.zero_le _) (reach_len_ge hc hn).1

theorem store_cells {c : Config} {n : Nat} {m : Memory} {v : Int} {cell : Nat × Int}
    (h : cell ∈ (m.store c n v).cells) : cell = (n, v) ∨ cell ∈ m.cells :=
  (mem_putCell h).imp id reach_cells

/-! ## Program load -/

theorem cellsWf_listCells (program : List Int) (i : Nat) :
    cellsWf (i + program.length) i (listCells i program) = true := by
  induction program generalizing i with
  | nil => rfl
  | cons v rest ih =>
    have h := ih (i + 1)
    have he : i + 1 + rest.length = i + (v :: rest).length := by simp; omega
    rw [he] at h
    simp only [listCells]
    split
    · exact cellsWf_lower (by omega) h
    · exact cellsWf_cons.2 ⟨le_refl _, by simp, by assumption, h⟩

/-- A loaded program is in canonical form. -/
theorem ofProgram_wf (program : List Int) : (Memory.ofProgram program).wf = true := by
  simpa [Memory.ofProgram, Memory.wf] using cellsWf_listCells program 0

theorem lookupCell_listCells (program : List Int) (i a : Nat) :
    lookupCell (i + a) (listCells i program) = program.getD a 0 := by
  induction program generalizing i a with
  | nil => simp [listCells, lookupCell]
  | cons v rest ih =>
    simp only [listCells]
    cases a with
    | zero =>
      split
      · simp_all [lookupCell_below (cellsWf_listCells rest (i + 1)) (show i < i + 1 by omega)]
      · simp [lookupCell]
    | succ b =>
      have h := ih (i + 1) b
      have he : i + 1 + b = i + (b + 1) := by omega
      rw [he] at h
      split
      · simpa using h
      · rw [lookupCell, if_neg (by omega)]; simpa using h

/-- Every cell of a loaded program holds its word, and every other cell reads 0 (`10_state.md` R32, `20_memory.md` R54). -/
theorem ofProgram_word (program : List Int) (a : Nat) : (Memory.ofProgram program).word a = program.getD a 0 := by
  have h := lookupCell_listCells program 0 a
  simp only [Nat.zero_add] at h
  simp only [Memory.word, Memory.ofProgram, h]
  split_ifs
  · rfl
  · rw [List.getD_eq_default _ _ (by omega)]

theorem mem_listCells {program : List Int} {i : Nat} {cell : Nat × Int} (h : cell ∈ listCells i program) :
    cell.2 ∈ program := by
  induction program generalizing i with
  | nil => simp [listCells] at h
  | cons v rest ih =>
    simp only [listCells] at h
    split at h
    · exact List.mem_cons_of_mem _ (ih h)
    · rcases List.mem_cons.1 h with h | h
      · subst h; exact List.mem_cons_self
      · exact List.mem_cons_of_mem _ (ih h)

/-- Words laid into memory from outside keep the canonical form. -/
theorem place_wf (ws : List Int) (a : Nat) (m : Memory) (h : m.wf = true) : (Memory.place a ws m).wf = true := by
  induction ws generalizing a m with
  | nil => exact h
  | cons v rest ih =>
    exact ih _ _ (cellsWf_putCell v (cellsWf_mono (by simp) h) (Nat.zero_le _) (by simp))

end Sys2Proof.Machine
end

