-- ==== Sys2Proof/Laws/Ops.lean ====
section
/-! SUPPORT. What the phases of a step can do: each answers with the state it was given, grown by reads, and nothing else
(`40_engine.md` R90, `20_memory.md` R46). -/

namespace Sys2Proof.Machine

variable {c : Config} {s s1 s2 t : State}

@[simp] theorem hardware_wordBits : hardware.wordBits = 64 := rfl
@[simp] theorem hardware_overflow : hardware.overflow = .fault := rfl
@[simp] theorem hardware_maxMemWords : hardware.maxMemWords = none := rfl
@[simp] theorem hardware_olCapacity : hardware.olCapacity = none := rfl
@[simp] theorem hardware_iqCapacity : hardware.iqCapacity = none := rfl
@[simp] theorem belowCapacity_none (n : Nat) : belowCapacity n none = true := rfl

@[simp] theorem Res.bind_ok {α β : Type} (a : α) (s : State) (f : α → State → Res β) : (Res.ok a s).bind f = f a s := rfl

@[simp] theorem Res.bind_raise {α β : Type} (k : FaultKind) (s : State) (f : α → State → Res β) :
    (Res.raise k s).bind f = .raise k s := rfl

@[simp] theorem check_ok {α : Type} (a : α) (s : State) : check (.ok a) s = .ok a s := rfl

@[simp] theorem check_error {α : Type} (k : FaultKind) (s : State) : check (.error k : Except FaultKind α) s = .raise k s := rfl

@[simp] theorem conclude_continue (pc0 : Int) (s : State) : conclude pc0 (.ok .continue s) = .next s := rfl

@[simp] theorem conclude_output (pc0 : Int) (s : State) :
    conclude pc0 (.ok .output s) = .next (s.setStatus .suspendedOnOutput) := rfl

@[simp] theorem conclude_halt (pc0 : Int) (s : State) : conclude pc0 (.ok .halt s) = .next (s.setStatus .halted) := rfl

@[simp] theorem conclude_raise (pc0 : Int) (k : FaultKind) (s : State) :
    conclude pc0 (.raise k s) = .next (enterFault k pc0 s) := rfl

/-! ## Growth by reads -/

/-- `t` is `s` after some reads: memory grown at addresses below the capacity, nothing else changed. -/
inductive Grown (c : Config) : State → State → Prop where
  | refl (s : State) : Grown c s s
  | reach {s t : State} (n : Nat) (hn : belowCapacity n c.maxMemWords = true) (h : Grown c s t) :
      Grown c s (t.setMem (t.mem.reach c n))

theorem Grown.trans (h1 : Grown c s s1) (h2 : Grown c s1 s2) : Grown c s s2 := by
  induction h2 with
  | refl => exact h1
  | reach n hn _ ih => exact ih.reach n hn

/-- What reads may do to a state, as a program and the host see it. -/
theorem Grown.grownFrom (hc : c.Admitted) (h : Grown c s t) : GrownFrom s t := by
  induction h with
  | refl => exact ⟨fun _ => rfl, le_refl _, rfl, rfl, rfl, rfl, rfl, rfl, rfl⟩
  | reach n hn _ ih =>
    obtain ⟨h1, h2, h3, h4, h5, h6, h7, h8, h9⟩ := ih
    exact ⟨fun a => (reach_word hc hn a).trans (h1 a), h2.trans (reach_len_ge hc hn).2, h3, h4, h5, h6, h7, h8, h9⟩

/-- Reads keep the canonical form of memory. -/
theorem Grown.memWf (hc : c.Admitted) (h : Grown c s t) (hw : s.mem.wf = true) : t.mem.wf = true := by
  induction h with
  | refl => exact hw
  | reach n hn _ ih => exact reach_wf hc hn ih

/-- Reads keep a state legal. -/
theorem Grown.legal (hc : c.Admitted) (h : Grown c s t) (hs : s.Legal c) : t.Legal c := by
  induction h with
  | refl => exact hs
  | reach n hn _ ih =>
    exact { ih with
      memWf := reach_wf hc hn ih.memWf
      cells := fun cell hcell => ih.cells cell (reach_cells hcell)
      memLen := withinCapacity_reach ih.memLen }

/-- The word range as two inequalities (`00_scope.md` R8). -/
theorem inRange_iff {bits : Nat} {x : Int} :
    inRange bits x = true ↔ -((2 ^ (bits - 1) : Nat) : Int) ≤ x ∧ x ≤ ((2 ^ (bits - 1) : Nat) : Int) - 1 := by
  unfold inRange wordMin wordMax
  rw [Bool.and_eq_true, decide_eq_true_iff, decide_eq_true_iff]

/-- The words of a legal state are in range. -/
theorem State.Legal.word (hs : s.Legal c) (a : Nat) : inRange c.wordBits (s.mem.word a) = true := by
  have h0 : inRange c.wordBits 0 = true := by
    have : 1 ≤ 2 ^ (c.wordBits - 1) := Nat.one_le_two_pow
    rw [inRange_iff]
    omega
  have hl : ∀ cells : List (Nat × Int), (∀ cell ∈ cells, inRange c.wordBits cell.2 = true) →
      inRange c.wordBits (lookupCell a cells) = true := by
    intro cells
    induction cells with
    | nil => exact fun _ => h0
    | cons cell rest ih =>
      intro hcells
      obtain ⟨e, u⟩ := cell
      simp only [lookupCell]
      split
      · exact hcells _ List.mem_cons_self
      · exact ih fun x hx => hcells x (List.mem_cons_of_mem _ hx)
  simp only [Memory.word]
  split
  · exact hl _ hs.cells
  · exact h0

/-! ## Addresses and overflow -/

/-- The three cases of an address check (`20_memory.md` R42, `40_engine.md` R86). -/
theorem checkAddr_ok {a : Int} {n : Nat} :
    checkAddr c a = .ok n ↔ 0 ≤ a ∧ n = a.toNat ∧ belowCapacity n c.maxMemWords = true := by
  unfold checkAddr
  split_ifs with h1 h2
  · simp; omega
  · simp only [Except.ok.injEq]
    constructor
    · rintro rfl; exact ⟨by omega, rfl, h2⟩
    · rintro ⟨_, rfl, _⟩; rfl
  · simp only [false_iff, not_and]
    rintro _ rfl h; exact h2 h

theorem checkAddr_negative {a : Int} (h : a < 0) : checkAddr c a = .error .negativeAddress := if_pos h

theorem checkAddr_exhausted {a : Int} (h : 0 ≤ a) (hb : belowCapacity a.toNat c.maxMemWords = false) :
    checkAddr c a = .error .resourceExhausted := by
  unfold checkAddr
  rw [if_neg (by omega), if_neg (by simp [hb])]

theorem checkAddr_fine {a : Int} (h : 0 ≤ a) (hb : belowCapacity a.toNat c.maxMemWords = true) :
    checkAddr c a = .ok a.toNat :=
  checkAddr_ok.2 ⟨h, rfl, hb⟩

/-- The first of the two forms of a successful overflow check (`00_scope.md` R12). -/
theorem ovf_ok_of_inRange {x : Int} (h : inRange c.wordBits x = true) : ovf c x = .ok x := if_pos h

/-- Under `OVERFLOW_POLICY = fault` an exact result outside the range raises `ArithmeticOverflow` (R12). -/
theorem ovf_fault {x : Int} (hp : c.overflow = .fault) (h : inRange c.wordBits x = false) :
    ovf c x = .error .arithmeticOverflow := by
  simp [ovf, h, hp]

/-- Every word `ovf` answers is in range (R8, R12). -/
theorem ovf_inRange (hc : c.Admitted) {x y : Int} (h : ovf c x = .ok y) : inRange c.wordBits y = true := by
  unfold ovf at h
  split at h
  · cases h; assumption
  · split at h
    · simp at h
    · obtain ⟨b, hb⟩ : ∃ b, c.wordBits = b + 1 := ⟨c.wordBits - 1, by have := hc.wide; omega⟩
      have hpos : (0 : Int) < ((2 ^ c.wordBits : Nat) : Int) := by exact_mod_cast Nat.two_pow_pos _
      have h1 := Int.emod_nonneg (x - wordMin c.wordBits) (ne_of_gt hpos)
      have h2 := Int.emod_lt_of_pos (x - wordMin c.wordBits) hpos
      simp only [Except.ok.injEq] at h
      subst h
      rw [hb] at h1 h2 ⊢
      rw [inRange_iff]
      simp only [wordMin, Nat.add_sub_cancel, pow_succ] at *
      push_cast at *
      omega

/-- The only fault `ovf` raises. -/
theorem ovf_error {x : Int} {k : FaultKind} (h : ovf c x = .error k) : k = .arithmeticOverflow := by
  unfold ovf at h
  split at h
  · simp at h
  · split at h <;> simp_all

/-! ## The phases -/

theorem check_eq_ok {α : Type} {e : Except FaultKind α} {a : α} : check e s = .ok a t ↔ e = .ok a ∧ t = s := by
  cases e <;> simp [check, eq_comm]

theorem check_eq_raise {α : Type} {e : Except FaultKind α} {k : FaultKind} :
    check e s = .raise k t ↔ e = .error k ∧ t = s := by
  cases e <;> simp [check, eq_comm]

/-- A read that succeeds: the address is legal, memory has grown to it, the word is the one the state held. -/
theorem memRead_ok (hc : c.Admitted) {a v : Int} (h : memRead c a s = .ok v t) :
    ∃ n, checkAddr c a = .ok n ∧ v = s.mem.word n ∧ t = s.setMem (s.mem.reach c n) := by
  unfold memRead access at h
  cases hn : checkAddr c a with
  | error k => simp [hn] at h
  | ok n =>
    simp only [hn, Res.ok.injEq] at h
    exact ⟨n, rfl, h.1.symm.trans (reach_word hc (checkAddr_ok.1 hn).2.2 n), h.2.symm⟩

/-- A read at a legal address. -/
theorem memRead_of_ok (hc : c.Admitted) {a : Int} {n : Nat} (h : checkAddr c a = .ok n) :
    memRead c a s = .ok (s.mem.word n) (s.setMem (s.mem.reach c n)) := by
  simp [memRead, access, h, reach_word hc (checkAddr_ok.1 h).2.2]

/-- A read that raises changes nothing. -/
theorem memRead_raise {a : Int} {k : FaultKind} : memRead c a s = .raise k t ↔ checkAddr c a = .error k ∧ t = s := by
  unfold memRead access
  cases checkAddr c a <;> simp [eq_comm]

theorem memRead_grown (hc : c.Admitted) {a v : Int} (h : memRead c a s = .ok v t) : Grown c s t := by
  obtain ⟨n, hn, _, rfl⟩ := memRead_ok hc h
  exact (Grown.refl s).reach n (checkAddr_ok.1 hn).2.2

/-- A value read is a word the state holds, or the operand's own, and the state has only grown (`40_engine.md` R85). -/
theorem readValue_ok (hc : c.Admitted) {o : Operand} {v : Int} (h : readValue c o s = .ok v t) :
    Grown c s t ∧ (v = o.raw ∨ ∃ n, v = s.mem.word n) := by
  unfold readValue at h
  split at h
  · simp only [Res.ok.injEq] at h; exact ⟨h.2 ▸ .refl s, .inl h.1.symm⟩
  · obtain ⟨n, _, hv, _⟩ := memRead_ok hc h
    exact ⟨memRead_grown hc h, .inr ⟨n, hv⟩⟩
  · cases hx : ovf c (o.raw + s.rb) with
    | error k => simp [hx] at h
    | ok a =>
      simp only [hx, check_ok, Res.bind_ok] at h
      obtain ⟨n, _, hv, _⟩ := memRead_ok hc h
      exact ⟨memRead_grown hc h, .inr ⟨n, hv⟩⟩

/-- A value that cannot be read leaves the state as it was. -/
theorem readValue_raise {o : Operand} {k : FaultKind} (h : readValue c o s = .raise k t) : t = s := by
  unfold readValue at h
  split at h
  · simp at h
  · exact (memRead_raise.1 h).2
  · cases hx : ovf c (o.raw + s.rb) with
    | error k => simp only [hx, check_error, Res.bind_raise, Res.raise.injEq] at h; exact h.2.symm
    | ok a => simp only [hx, check_ok, Res.bind_ok] at h; exact (memRead_raise.1 h).2

/-- Resolving a write address accesses nothing, and the address is below the capacity (`40_engine.md` R86). -/
theorem writeAddr_ok {o : Operand} {n : Nat} (h : writeAddr c o s = .ok n t) :
    t = s ∧ belowCapacity n c.maxMemWords = true := by
  obtain ⟨h, rfl⟩ := check_eq_ok.1 h
  refine ⟨rfl, ?_⟩
  unfold resolveAddr at h
  split at h
  · simp at h
  · exact (checkAddr_ok.1 h).2.2
  · split at h
    · simp at h
    · exact (checkAddr_ok.1 h).2.2

theorem writeAddr_raise {o : Operand} {k : FaultKind} (h : writeAddr c o s = .raise k t) : t = s :=
  (check_eq_raise.1 h).2

/-- An advance that does not overflow, after reads (`40_engine.md` R88). -/
theorem advance_of_inRange {w : Int} (hpc : t.pc = s.pc) (h : inRange c.wordBits (s.pc + w) = true) :
    advance c w t = .ok (s.pc + w) t := by
  rw [advance, hpc, ovf_ok_of_inRange h, check_ok]

theorem advance_ok {w v : Int} (h : advance c w s = .ok v t) : ovf c (s.pc + w) = .ok v ∧ t = s :=
  check_eq_ok.1 h

theorem advance_raise {w : Int} {k : FaultKind} (h : advance c w s = .raise k t) :
    ovf c (s.pc + w) = .error k ∧ t = s :=
  check_eq_raise.1 h

end Sys2Proof.Machine
end

