-- ==== Sys2Proof/Laws/Exec.lean ====
section
/-! SUPPORT. Everything an instruction can do, once for all ten (`execWith_cases`), and everything a fetch and a step can do. -/

namespace Sys2Proof.Machine

variable {c : Config} {s t : State}

/-- A next state of `Execute` (`40_engine.md` R87, R90): a fault taken after some reads, or one commit after some reads. `r` names
the state after the reads. -/
inductive ExecCase (c : Config) (s t : State) : Instr → Prop where
  | fault {i : Instr} (k : FaultKind) (r : State) (hr : Grown c s r) (ht : t = enterFault k s.pc r) : ExecCase c s t i
  | store {i : Instr} (d : Operand) (n : Nat) (v npc : Int) (r : State) (hi : i.writeOperand = some d) (hr : Grown c s r)
      (hin : ∀ d, i ≠ .input d)
      (hd : writeAddr c d r = .ok n r) (hn : belowCapacity n c.maxMemWords = true) (hv : inRange c.wordBits v = true)
      (hnpc : ovf c (s.pc + i.width) = .ok npc) (ht : t = (r.store c n v).setPc npc) : ExecCase c s t i
  | input (d : Operand) (n : Nat) (v npc : Int) (rest : List Int)
      (hd : writeAddr c d s = .ok n s) (hn : belowCapacity n c.maxMemWords = true) (hq : s.iq = v :: rest)
      (hnpc : ovf c (s.pc + 2) = .ok npc) (ht : t = ((s.setIq rest).store c n v).setPc npc) :
      ExecCase c s t (.input d)
  | output (a : Operand) (v npc : Int) (r : State) (hr : Grown c s r) (hv : readValue c a s = .ok v r)
      (hroom : belowCapacity s.ol.length c.olCapacity = true) (hnpc : ovf c (s.pc + 2) = .ok npc)
      (ht : t = ((r.appendOl v).setPc npc).setStatus .suspendedOnOutput) : ExecCase c s t (.output a)
  | jump {i : Instr} (a tg : Operand) (taken : Int → Bool) (x target npc : Int) (r1 r : State)
      (hi : i = .jumpIfTrue a tg ∧ (taken = fun x => decide (x ≠ 0)) ∨
        i = .jumpIfFalse a tg ∧ (taken = fun x => decide (x = 0)))
      (hx : readValue c a s = .ok x r1) (htg : readValue c tg r1 = .ok target r) (hr : Grown c s r)
      (hnpc : if taken x then npc = target else ovf c (s.pc + 3) = .ok npc) (ht : t = r.setPc npc) : ExecCase c s t i
  | rebase (a : Operand) (v nrb npc : Int) (r : State) (hr : Grown c s r) (hv : readValue c a s = .ok v r)
      (hnrb : ovf c (s.rb + v) = .ok nrb) (hnpc : ovf c (s.pc + 2) = .ok npc) (ht : t = (r.setRb nrb).setPc npc) :
      ExecCase c s t (.adjustRelativeBase a)
  | halt (npc : Int) (hnpc : ovf c (s.pc + 1) = .ok npc) (ht : t = (s.setPc npc).setStatus .halted) :
      ExecCase c s t .halt

theorem Grown.pc (h : Grown c s t) : t.pc = s.pc := by induction h <;> simp_all
theorem Grown.rb (h : Grown c s t) : t.rb = s.rb := by induction h <;> simp_all
theorem Grown.status (h : Grown c s t) : t.status = s.status := by induction h <;> simp_all
theorem Grown.iq (h : Grown c s t) : t.iq = s.iq := by induction h <;> simp_all
theorem Grown.ol (h : Grown c s t) : t.ol = s.ol := by induction h <;> simp_all

/-- The cases of an F3 instruction (`binaryOp`). -/
theorem binaryOp_cases (hc : c.Admitted) {op : Int → Int → Except FaultKind Int} {a b d : Operand} {i : Instr}
    (hop : ∀ x y r, op x y = .ok r → inRange c.wordBits r = true) (hi : i.writeOperand = some d) (hw : (i.width : Int) = 4)
    (hin : ∀ d, i ≠ .input d) (h : binaryOp c op a b d s = .next t) : ExecCase c s t i := by
  unfold binaryOp at h
  cases h1 : readValue c a s with
  | raise k s1 =>
    simp only [h1, Res.bind_raise, conclude_raise, Host.Outcome.next.injEq] at h
    exact .fault k s1 ((readValue_raise h1).symm ▸ .refl s) h.symm
  | ok x s1 =>
    have g1 := (readValue_ok hc h1).1
    simp only [h1, Res.bind_ok] at h
    cases h2 : readValue c b s1 with
    | raise k s2 =>
      simp only [h2, Res.bind_raise, conclude_raise, Host.Outcome.next.injEq] at h
      exact .fault k s2 ((readValue_raise h2).symm ▸ g1) h.symm
    | ok y s2 =>
      have g2 := g1.trans (readValue_ok hc h2).1
      simp only [h2, Res.bind_ok] at h
      cases h3 : writeAddr c d s2 with
      | raise k s3 =>
        simp only [h3, Res.bind_raise, conclude_raise, Host.Outcome.next.injEq] at h
        exact .fault k s3 ((writeAddr_raise h3).symm ▸ g2) h.symm
      | ok n s3 =>
        obtain ⟨rfl, hn⟩ := writeAddr_ok h3
        simp only [h3, Res.bind_ok] at h
        cases h4 : op x y with
        | error k =>
          simp only [h4, check_error, Res.bind_raise, conclude_raise, Host.Outcome.next.injEq] at h
          exact .fault k _ g2 h.symm
        | ok v =>
          simp only [h4, check_ok, Res.bind_ok, advance, g2.pc] at h
          cases h5 : ovf c (s.pc + 4) with
          | error k =>
            simp only [h5, check_error, Res.bind_raise, conclude_raise, Host.Outcome.next.injEq] at h
            exact .fault k _ g2 h.symm
          | ok npc =>
            simp only [h5, check_ok, Res.bind_ok, conclude_continue, Host.Outcome.next.injEq] at h
            exact .store d n v npc _ hi g2 hin h3 hn (hop _ _ _ h4) (by rw [hw]; exact h5) h.symm

/-- The cases of a conditional jump (`jumpWhen`). -/
theorem jumpWhen_cases (hc : c.Admitted) {taken : Int → Bool} {a tg : Operand} {i : Instr}
    (hi : i = .jumpIfTrue a tg ∧ (taken = fun x => decide (x ≠ 0)) ∨
      i = .jumpIfFalse a tg ∧ (taken = fun x => decide (x = 0)))
    (h : jumpWhen c taken a tg s = .next t) : ExecCase c s t i := by
  unfold jumpWhen at h
  cases h1 : readValue c a s with
  | raise k s1 =>
    simp only [h1, Res.bind_raise, conclude_raise, Host.Outcome.next.injEq] at h
    exact .fault k s1 ((readValue_raise h1).symm ▸ .refl s) h.symm
  | ok x s1 =>
    have g1 := (readValue_ok hc h1).1
    simp only [h1, Res.bind_ok] at h
    cases h2 : readValue c tg s1 with
    | raise k s2 =>
      simp only [h2, Res.bind_raise, conclude_raise, Host.Outcome.next.injEq] at h
      exact .fault k s2 ((readValue_raise h2).symm ▸ g1) h.symm
    | ok target s2 =>
      have g2 := g1.trans (readValue_ok hc h2).1
      simp only [h2, Res.bind_ok, advance, g2.pc] at h
      by_cases hx : taken x = true
      · simp only [hx, if_true, Res.bind_ok, conclude_continue, Host.Outcome.next.injEq] at h
        exact .jump a tg taken x target target s1 s2 hi h1 h2 g2 (by simp [hx]) h.symm
      · rw [if_neg hx] at h
        cases h5 : ovf c (s.pc + 3) with
        | error k =>
          simp only [h5, check_error, Res.bind_raise, conclude_raise, Host.Outcome.next.injEq] at h
          exact .fault k _ g2 h.symm
        | ok npc =>
          simp only [h5, check_ok, Res.bind_ok, conclude_continue, Host.Outcome.next.injEq] at h
          exact .jump a tg taken x target npc s1 s2 hi h1 h2 g2 (by rw [if_neg hx]; exact h5) h.symm

theorem inputWith_cases {d : Operand} (h : inputWith c d s = .next t) : ExecCase c s t (.input d) := by
  unfold inputWith at h
  cases h1 : writeAddr c d s with
  | raise k s1 =>
    simp only [h1, Res.bind_raise, conclude_raise, Host.Outcome.next.injEq] at h
    exact .fault k s1 ((writeAddr_raise h1).symm ▸ .refl s) h.symm
  | ok n s1 =>
    obtain ⟨rfl, hn⟩ := writeAddr_ok h1
    simp only [h1, Res.bind_ok] at h
    cases hq : s1.iq with
    | nil =>
      simp only [hq, popInput, check_error, Res.bind_raise, conclude_raise, Host.Outcome.next.injEq] at h
      exact .fault _ _ (.refl _) h.symm
    | cons v rest =>
      simp only [hq, popInput, check_ok, Res.bind_ok, advance] at h
      cases h5 : ovf c (s1.pc + 2) with
      | error k =>
        simp only [h5, check_error, Res.bind_raise, conclude_raise, Host.Outcome.next.injEq] at h
        exact .fault k _ (.refl _) h.symm
      | ok npc =>
        simp only [h5, check_ok, Res.bind_ok, conclude_continue, Host.Outcome.next.injEq] at h
        exact .input d n v npc rest h1 hn hq h5 h.symm

theorem outputWith_cases (hc : c.Admitted) {a : Operand} (h : outputWith c a s = .next t) :
    ExecCase c s t (.output a) := by
  unfold outputWith at h
  cases h1 : readValue c a s with
  | raise k s1 =>
    simp only [h1, Res.bind_raise, conclude_raise, Host.Outcome.next.injEq] at h
    exact .fault k s1 ((readValue_raise h1).symm ▸ .refl s) h.symm
  | ok v r =>
    have g := (readValue_ok hc h1).1
    simp only [h1, Res.bind_ok, checkLogRoom, g.ol] at h
    by_cases hroom : belowCapacity s.ol.length c.olCapacity = true
    · simp only [hroom, if_true, check_ok, Res.bind_ok, advance, g.pc] at h
      cases h5 : ovf c (s.pc + 2) with
      | error k =>
        simp only [h5, check_error, Res.bind_raise, conclude_raise, Host.Outcome.next.injEq] at h
        exact .fault k _ g h.symm
      | ok npc =>
        simp only [h5, check_ok, Res.bind_ok, conclude_output, Host.Outcome.next.injEq] at h
        exact .output a v npc r g h1 hroom h5 h.symm
    · rw [if_neg hroom] at h
      simp only [check_error, Res.bind_raise, conclude_raise, Host.Outcome.next.injEq] at h
      exact .fault _ _ g h.symm

theorem adjustRelativeBaseWith_cases (hc : c.Admitted) {a : Operand} (h : adjustRelativeBaseWith c a s = .next t) :
    ExecCase c s t (.adjustRelativeBase a) := by
  unfold adjustRelativeBaseWith at h
  cases h1 : readValue c a s with
  | raise k s1 =>
    simp only [h1, Res.bind_raise, conclude_raise, Host.Outcome.next.injEq] at h
    exact .fault k s1 ((readValue_raise h1).symm ▸ .refl s) h.symm
  | ok v r =>
    have g := (readValue_ok hc h1).1
    simp only [h1, Res.bind_ok, g.rb] at h
    cases h3 : ovf c (s.rb + v) with
    | error k =>
      simp only [h3, check_error, Res.bind_raise, conclude_raise, Host.Outcome.next.injEq] at h
      exact .fault k _ g h.symm
    | ok nrb =>
      simp only [h3, check_ok, Res.bind_ok, advance, g.pc] at h
      cases h5 : ovf c (s.pc + 2) with
      | error k =>
        simp only [h5, check_error, Res.bind_raise, conclude_raise, Host.Outcome.next.injEq] at h
        exact .fault k _ g h.symm
      | ok npc =>
        simp only [h5, check_ok, Res.bind_ok, conclude_continue, Host.Outcome.next.injEq] at h
        exact .rebase a v nrb npc r g h1 h3 h5 h.symm

theorem haltWith_cases (h : haltWith c s = .next t) : ExecCase c s t .halt := by
  unfold haltWith advance at h
  cases h5 : ovf c (s.pc + 1) with
  | error k =>
    simp only [h5, check_error, Res.bind_raise, conclude_raise, Host.Outcome.next.injEq] at h
    exact .fault k _ (.refl _) h.symm
  | ok npc =>
    simp only [h5, check_ok, Res.bind_ok, conclude_halt, Host.Outcome.next.injEq] at h
    exact .halt npc h5 h.symm

theorem inRange_boolWord (hc : c.Admitted) (b : Bool) : inRange c.wordBits (boolWord b) = true := by
  have h : 2 ^ 1 ≤ 2 ^ (c.wordBits - 1) := Nat.pow_le_pow_right (by decide) (by have := hc.wide; omega)
  rw [inRange_iff]
  unfold boolWord
  split <;> omega

/-- Everything `Execute` can do (`40_engine.md` R87, R90). -/
theorem execWith_cases (hc : c.Admitted) {i : Instr} (h : execWith c i s = .next t) : ExecCase c s t i := by
  cases i with
  | add a b d => exact binaryOp_cases hc (fun _ _ _ => ovf_inRange hc) rfl rfl (by simp) h
  | mul a b d => exact binaryOp_cases hc (fun _ _ _ => ovf_inRange hc) rfl rfl (by simp) h
  | input d => exact inputWith_cases h
  | output a => exact outputWith_cases hc h
  | jumpIfTrue a tg => exact jumpWhen_cases hc (.inl ⟨rfl, rfl⟩) h
  | jumpIfFalse a tg => exact jumpWhen_cases hc (.inr ⟨rfl, rfl⟩) h
  | lessThan a b d =>
    exact binaryOp_cases hc (fun _ _ _ hr => by cases hr; exact inRange_boolWord hc _) rfl rfl (by simp) h
  | equals a b d =>
    exact binaryOp_cases hc (fun _ _ _ hr => by cases hr; exact inRange_boolWord hc _) rfl rfl (by simp) h
  | adjustRelativeBase a => exact adjustRelativeBaseWith_cases hc h
  | halt => exact haltWith_cases h

/-- `exec` is `Execute` under this hardware's parameters. -/
theorem exec_eq_execWith (i : Instr) (s : State) : exec i s = execWith hardware i s := by
  cases i <;> rfl

/-- `step` is one step under this hardware's parameters. -/
theorem step_eq_stepWith (s : State) : step s = stepWith hardware s := by
  unfold step stepWith
  rw [show exec = execWith hardware from funext fun i => funext fun s => exec_eq_execWith i s]

/-- This hardware's parameters are admitted (`00_scope.md` R7, R8; `20_memory.md` R43). -/
theorem hardware_admitted : hardware.Admitted where
  wide := by decide
  growLaw := fun addr len _ => by simp only [hardware, growToDouble]; omega

/-! ## Fetch -/

theorem fetchOperand_ok (hc : c.Admitted) {slot : Nat} {m : Mode} {o : Operand} (h : fetchOperand c slot m s = .ok o t) :
    Grown c s t ∧ o.mode = m ∧ ∃ n, o.raw = s.mem.word n := by
  unfold fetchOperand at h
  cases hx : ovf c (s.pc + 1 + slot) with
  | error k => simp [hx] at h
  | ok addr =>
    simp only [hx, check_ok, Res.bind_ok] at h
    cases h2 : memRead c addr s with
    | raise k s1 => simp [h2] at h
    | ok raw s1 =>
      simp only [h2, Res.bind_ok, Res.ok.injEq] at h
      obtain ⟨rfl, rfl⟩ := h
      obtain ⟨n, _, hv, _⟩ := memRead_ok hc h2
      exact ⟨memRead_grown hc h2, rfl, n, hv⟩

theorem fetchOperand_raise (slot : Nat) {m : Mode} {k : FaultKind} (h : fetchOperand c slot m s = .raise k t) : t = s := by
  unfold fetchOperand at h
  cases hx : ovf c (s.pc + 1 + slot) with
  | error k => simp only [hx, check_error, Res.bind_raise, Res.raise.injEq] at h; exact h.2.symm
  | ok addr =>
    simp only [hx, check_ok, Res.bind_ok] at h
    cases h2 : memRead c addr s with
    | raise k s1 => simp only [h2, Res.bind_raise, Res.raise.injEq] at h; rw [← h.2]; exact (memRead_raise.1 h2).2
    | ok raw s1 => simp [h2] at h

/-- What a phase of fetch leaves, however it ends: the state, grown. -/
def Res.GrewFrom {α : Type} (c : Config) (s : State) (r : Res α) : Prop :=
  match r with
  | .ok _ t => Grown c s t
  | .raise _ t => Grown c s t

theorem Res.GrewFrom.bind {α β : Type} {r : Res α} {f : α → State → Res β} (hr : r.GrewFrom c s)
    (hf : ∀ a t, Grown c s t → (f a t).GrewFrom c s) : (r.bind f).GrewFrom c s := by
  cases r with
  | ok a t => exact hf a t hr
  | raise k t => exact hr

theorem fetchOperand_grew (hc : c.Admitted) (slot : Nat) (m : Mode) (hs : Grown c s t) :
    (fetchOperand c slot m t).GrewFrom c s := by
  cases h : fetchOperand c slot m t with
  | ok o u => exact hs.trans (fetchOperand_ok hc h).1
  | raise k u => rw [fetchOperand_raise slot h]; exact hs

/-- A fetch and decode changes nothing but the memory its reads grow, whether it succeeds or raises (`40_engine.md` R90). -/
theorem fetchInstr_grew (hc : c.Admitted) : (fetchInstr c s).GrewFrom c s := by
  unfold fetchInstr
  refine .bind ?_ fun w r hr => .bind ?_ fun h r' hr' => ?_
  · cases h : memRead c s.pc s with
    | ok v u => exact memRead_grown hc h
    | raise k u => rw [(memRead_raise.1 h).2]; exact .refl s
  · cases checkHeader w <;> exact hr
  · cases h with
    | f0 => exact hr'
    | f1 o m0 => exact .bind (fetchOperand_grew hc 0 m0 hr') fun _ _ h => h
    | f2 o m0 m1 =>
      exact .bind (fetchOperand_grew hc 0 m0 hr') fun _ _ h => .bind (fetchOperand_grew hc 1 m1 h) fun _ _ h => h
    | f3 o m0 m1 m2 =>
      exact .bind (fetchOperand_grew hc 0 m0 hr') fun _ _ h => .bind (fetchOperand_grew hc 1 m1 h) fun _ _ h =>
        .bind (fetchOperand_grew hc 2 m2 h) fun _ _ h => h

/-- Everything a step can do: nothing on an instance that has stopped for good; else, from the instance set running, a fault of
fetch or decode, or the fetched instruction's execution. -/
theorem stepWith_cases (hc : c.Admitted) (h : stepWith c s = .next t) :
    (s.ended = true ∧ t = s) ∨
    (s.ended = false ∧ ∃ r, Grown c (s.setStatus .running) r ∧
      ((∃ k, fetchInstr c (s.setStatus .running) = .raise k r ∧ t = enterFault k s.pc r) ∨
       (∃ i, fetchInstr c (s.setStatus .running) = .ok i r ∧ execWith c i r = .next t))) := by
  have run : ∀ u : State, u = s.setStatus .running → fetchAndRun c (execWith c) u = .next t →
      ∃ r, Grown c (s.setStatus .running) r ∧
        ((∃ k, fetchInstr c (s.setStatus .running) = .raise k r ∧ t = enterFault k s.pc r) ∨
         (∃ i, fetchInstr c (s.setStatus .running) = .ok i r ∧ execWith c i r = .next t)) := by
    rintro u rfl h
    have hg := fetchInstr_grew hc (s := s.setStatus .running)
    unfold fetchAndRun at h
    cases hf : fetchInstr c (s.setStatus .running) with
    | ok i r => rw [hf] at hg h; exact ⟨r, hg, .inr ⟨i, rfl, h⟩⟩
    | raise k r =>
      rw [hf] at hg h
      simp only [Host.Outcome.next.injEq] at h
      exact ⟨r, hg, .inl ⟨k, rfl, h.symm⟩⟩
  unfold stepWith stepBy at h
  cases hs : s.status with
  | running =>
    simp only [hs] at h
    exact .inr ⟨by simp [State.ended, hs], run s (State.setStatus_self s hs).symm h⟩
  | suspendedOnOutput =>
    simp only [hs] at h
    exact .inr ⟨by simp [State.ended, hs], run _ rfl h⟩
  | halted => simp only [hs, Host.Outcome.next.injEq] at h; exact .inl ⟨by simp [State.ended, hs], h.symm⟩
  | faulted => simp only [hs, Host.Outcome.next.injEq] at h; exact .inl ⟨by simp [State.ended, hs], h.symm⟩

end Sys2Proof.Machine
end

