-- ==== Sys2Proof/Laws/PerInstr.lean ====
section
/-! SUPPORT. The families of LAWS.json, one lemma per instruction. `EncodeWidth`: the encoder writes as many words as the width of
`30_encoding.md` R63 says. `HeaderReads`: the decoder reads back the instruction word the encoder writes (R70). -/

namespace Sys2Proof.Laws.EncodeWidth

def Statement (i : Instr) : Prop := (encode i).length = i.width

theorem add (a b d : Operand) : Statement (.add a b d) := rfl
theorem mul (a b d : Operand) : Statement (.mul a b d) := rfl
theorem input (d : Operand) : Statement (.input d) := rfl
theorem output (a : Operand) : Statement (.output a) := rfl
theorem jumpIfTrue (a t : Operand) : Statement (.jumpIfTrue a t) := rfl
theorem jumpIfFalse (a t : Operand) : Statement (.jumpIfFalse a t) := rfl
theorem lessThan (a b d : Operand) : Statement (.lessThan a b d) := rfl
theorem equals (a b d : Operand) : Statement (.equals a b d) := rfl
theorem adjustRelativeBase (a : Operand) : Statement (.adjustRelativeBase a) := rfl
theorem halt : Statement .halt := rfl

end Sys2Proof.Laws.EncodeWidth

namespace Sys2Proof.Laws.HeaderReads

def Statement (i : Instr) : Prop := decodeHeader (encodeHeader i.header) = .ok i.header

/-- The decoder reads back every F3 header. -/
theorem ofF3 (o : Op3) (m0 m1 m2 : Mode) : decodeHeader (encodeHeader (.f3 o m0 m1 m2)) = .ok (.f3 o m0 m1 m2) := by
  cases o <;> cases m0 <;> cases m1 <;> cases m2 <;> rfl

/-- The decoder reads back every F2 header. -/
theorem ofF2 (o : Op2) (m0 m1 : Mode) : decodeHeader (encodeHeader (.f2 o m0 m1)) = .ok (.f2 o m0 m1) := by
  cases o <;> cases m0 <;> cases m1 <;> rfl

/-- The decoder reads back every F1 header. -/
theorem ofF1 (o : Op1) (m0 : Mode) : decodeHeader (encodeHeader (.f1 o m0)) = .ok (.f1 o m0) := by
  cases o <;> cases m0 <;> rfl

theorem add (a b d : Operand) : Statement (.add a b d) := ofF3 _ _ _ _
theorem mul (a b d : Operand) : Statement (.mul a b d) := ofF3 _ _ _ _
theorem input (d : Operand) : Statement (.input d) := ofF1 _ _
theorem output (a : Operand) : Statement (.output a) := ofF1 _ _
theorem jumpIfTrue (a t : Operand) : Statement (.jumpIfTrue a t) := ofF2 _ _ _
theorem jumpIfFalse (a t : Operand) : Statement (.jumpIfFalse a t) := ofF2 _ _ _
theorem lessThan (a b d : Operand) : Statement (.lessThan a b d) := ofF3 _ _ _ _
theorem equals (a b d : Operand) : Statement (.equals a b d) := ofF3 _ _ _ _
theorem adjustRelativeBase (a : Operand) : Statement (.adjustRelativeBase a) := ofF1 _ _
theorem halt : Statement .halt := rfl

end Sys2Proof.Laws.HeaderReads
end

