-- ==== Sys2Proof/Tests/Slice0.lean ====
section
/-! SUPPORT. The model's own tests. Expected values come from the spec: the vectors of `95_test_vectors.md` by their names, or the
rule named. After them, for every obligation that has hypotheses, values that meet all of them together (`witness_…`). -/

namespace Sys2Proof.Tests

open Sys2Proof.Machine

/-! ## Helpers -/

/-- A new instance with a program, `new(program)`. -/
def vm (program : List Int) : State := State.reset.setMem (Memory.ofProgram program)

/-- An instance at `pc` with the cells given and nothing else in its memory. -/
def vmAt (pc : Int) (cells : List (Nat × Int)) (len : Nat) : State :=
  (State.reset.setMem ⟨cells, len⟩).setPc pc

/-- The next state of an outcome, if it is one. -/
def next? (o : Host.Outcome State Fault Refusal) : Option State :=
  match o with
  | .next s => some s
  | .fault _ => none
  | .refused _ => none

/-- One step, seen through `f`. -/
def after {α : Type} (f : State → α) (s : State) : Option α := (next? (step s)).map f

/-- The fault record with its status. -/
def record (s : State) : Status × Option FaultKind × Int := (s.status, s.faultKind, s.faultPc)

/-- Overflow by wrapping, else this hardware. -/
def wrapping : Config := { hardware with overflow := .wrap }

/-- Small capacities: the vectors' `MAX=16`, and one word in the queue and in the log. -/
def small : Config := { hardware with maxMemWords := some 16, iqCapacity := some 1, olCapacity := some 1 }

/-- The least growth the law admits. -/
def growingLeast : Config := { hardware with grow := fun addr _ => addr + 1 }

theorem wrapping_admitted : wrapping.Admitted := ⟨hardware_admitted.wide, hardware_admitted.growLaw⟩

theorem small_admitted : small.Admitted := ⟨hardware_admitted.wide, hardware_admitted.growLaw⟩

theorem growingLeast_admitted : growingLeast.Admitted := ⟨hardware_admitted.wide, fun _ _ _ => le_refl _⟩

/-- Immediate, Position and Relative operands, as the spec's notation writes them. -/
def imm (raw : Int) : Operand := ⟨.immediate, raw⟩
def pos (raw : Int) : Operand := ⟨.position, raw⟩
def rel (raw : Int) : Operand := ⟨.relative, raw⟩

/-! ## WellFormed: each check refuses an ill-formed term -/

theorem test_raw_above_range_refused : (Instr.output (pos 9223372036854775808)).wf hardware = false := by decide
theorem test_raw_below_range_refused : (Instr.add (imm 0) (imm (-9223372036854775809)) (pos 0)).wf hardware = false := by
  decide
theorem test_raw_range_ends_accepted :
    (Instr.jumpIfTrue (imm 9223372036854775807) (imm (-9223372036854775808))).wf hardware = true := by decide
theorem test_immediate_write_refused : (Instr.equals (imm 1) (imm 1) (imm 5)).writesToAddress = false := by decide
theorem test_relative_write_accepted : (Instr.input (rel 50)).writesToAddress = true := by decide

/-! ## Decode: words written from R60 to R64, for every constructor -/

/-- `1001,4,3,5` is `ADD [4], #3, [5]` (V-L2-DEC-14). -/
theorem test_decode_add : decode [1001, 4, 3, 5] = .ok (.add (pos 4) (imm 3) (pos 5), []) := by rfl
/-- `21102,2,3,5` is `MUL #2, #3, [rb+5]` (V-L2-MUL-9). -/
theorem test_decode_mul : decode [21102, 2, 3, 5] = .ok (.mul (imm 2) (imm 3) (rel 5), []) := by rfl
/-- `203,50` is `IN [rb+50]` (V-L1-4). -/
theorem test_decode_input : decode [203, 50] = .ok (.input (rel 50), []) := by rfl
/-- `104,1125899906842624` is `OUT #1125899906842624` (V-L1-3). -/
theorem test_decode_output : decode [104, 1125899906842624] = .ok (.output (imm 1125899906842624), []) := by rfl
/-- `1005,28,6` is `JT [28], #6` (V-L1-6). -/
theorem test_decode_jumpIfTrue : decode [1005, 28, 6] = .ok (.jumpIfTrue (pos 28) (imm 6), []) := by rfl
/-- `2106,-5,3` is `JF #-5, [rb+3]` (R60: opcode 06, M0 = 1, M1 = 2). -/
theorem test_decode_jumpIfFalse : decode [2106, -5, 3] = .ok (.jumpIfFalse (imm (-5)) (rel 3), []) := by rfl
/-- `7,17,18,19` is `LT [17], [18], [19]` (P2). -/
theorem test_decode_lessThan : decode [7, 17, 18, 19] = .ok (.lessThan (pos 17) (pos 18) (pos 19), []) := by rfl
/-- `1008,100,16,101` is `EQ [100], #16, [101]` (V-L1-2). -/
theorem test_decode_equals : decode [1008, 100, 16, 101] = .ok (.equals (pos 100) (imm 16) (pos 101), []) := by rfl
/-- `209,3` is `ARB [rb+3]` (V-L2-ARB-4). -/
theorem test_decode_adjustRelativeBase : decode [209, 3] = .ok (.adjustRelativeBase (rel 3), []) := by rfl
/-- `98799` is `HLT` (V-L2-HLT-3). -/
theorem test_decode_halt : decode [98799, 7] = .ok (.halt, [7]) := by rfl

/-- V-L2-DEC-1 to DEC-3 and PRI-1: the opcode is tested before the modes, and a negative word before any `mod`. -/
theorem test_decode_unknown_opcode : [0, 98, -1, -99, 30098].map decodeHeader = List.replicate 5 (.error .unknownOpcode) := by
  rfl
/-- V-L2-DEC-5 to DEC-8 and PRI-5. -/
theorem test_decode_bad_mode :
    [301, 1301, 30001, 303, 3105].map decodeHeader = List.replicate 5 (.error .unknownAddressingMode) := by rfl
theorem test_decode_missing_word : decode [1, 0, 0] = .error .missingWord := by rfl
theorem test_encode_add : encode (.add (pos 4) (imm 3) (rel 5)) = [21001, 4, 3, 5] := by decide
/-- The table's `OUT` with zeros for its operand word, and a word whose top bit is set. -/
theorem test_decodeTableWord : decodeTableWord 8 4 = some (.output (pos 0)) ∧
    decodeTableWord 128 (340282366920938463444927863358058659844) = some (.output (pos (-1))) ∧
    decodeTableWord 8 0 = none := by decide

/-! ## One step of each instruction -/

/-- V-L2-ADD-3, its second instruction: every operand Relative, and memory grows. -/
theorem test_add_relative : after (fun s => (s.mem.word 12, s.pc, s.mem.len))
    (((vm [109, 10, 22201, 0, 1, 2, 99, 0, 0, 0, 20, 22]).setPc 2).setRb 10) = some (42, 6, 24) := by decide
/-- V-L2-ADD-4. -/
theorem test_add_overflow : after record (vm [1101, 9223372036854775807, 1, 5, 99, 0]) =
    some (.faulted, some .arithmeticOverflow, 0) := by decide
/-- V-L2-MUL-4: the largest square in range. -/
theorem test_mul_largest_square : after (fun s => (s.mem.word 5, s.pc)) (vm [1102, 3037000499, 3037000499, 5, 99, 0]) =
    some (9223372030926249001, 4) := by decide
/-- V-L2-MUL-6: the smallest square out of range, under `wrap`. -/
theorem test_mul_wraps : (next? (stepWith wrapping (vm [1102, 3037000500, 3037000500, 5, 99, 0]))).map (fun s => s.mem.word 5) =
    some (-9223372036709301616) := by decide
/-- V-L2-IN-6: first in, first out. -/
theorem test_input_pops_head : after (fun s => (s.mem.word 5, s.iq, s.pc)) ((vm [3, 5, 3, 6, 99, 0, 0]).setIq [1, 2, 3]) =
    some (1, [2, 3], 2) := by decide
/-- V-L2-IN-3: the write address is resolved before the queue is tested. -/
theorem test_input_order : after record (vm [103, 3, 99, 0]) = some (.faulted, some .invalidWriteTarget, 0) := by decide
/-- V-L2-OUT-5: a source beyond the end reads 0, and the read grows memory. -/
theorem test_output_beyond_end : after (fun s => (s.status, s.ol, s.pc, s.mem.len)) (vm [4, 50, 99]) =
    some (.suspendedOnOutput, [0], 2, 100) := by decide
/-- V-L2-OUT-4. -/
theorem test_output_negative_address : after (fun s => (record s, s.ol, s.pc)) (vm [4, -1]) =
    some ((.faulted, some .negativeAddress, 0), [], 0) := by decide
/-- V-L2-JT-4, its first step: a negative target loads. -/
theorem test_jumpIfTrue_negative_target : after (fun s => (s.status, s.pc)) (vm [1105, 1, -1]) = some (.running, -1) := by
  decide
/-- V-L2-JT-6: a jump not taken still reads its target. -/
theorem test_jumpIfTrue_eager : after record (vm [105, 0, -1, 99]) = some (.faulted, some .negativeAddress, 0) := by decide
/-- V-L2-JF-1. -/
theorem test_jumpIfFalse_taken : after State.pc (vm [1106, 0, 4, 99, 99]) = some 4 := by decide
/-- V-L2-JF-3: a negative condition falls through. -/
theorem test_jumpIfFalse_negative : after State.pc (vm [1106, -5, 0, 99]) = some 3 := by decide
/-- V-L2-LT-3: signed, at the extremes. -/
theorem test_lessThan_extremes : after (fun s => s.mem.word 5)
    (vm [1107, -9223372036854775808, 9223372036854775807, 5, 99, 7]) = some 1 := by decide
/-- V-L2-LT-2: equal values are not less. -/
theorem test_lessThan_equal : after (fun s => s.mem.word 5) (vm [1107, 5, 5, 5, 99, 7]) = some 0 := by decide
/-- V-L2-EQ-3: `EQ [0], [0], [0]` overwrites its own word, and the advance is from the fetched address. -/
theorem test_equals_overwrites_itself : after (fun s => (s.mem.word 0, s.pc)) (vm [8, 0, 0, 0, 99]) = some (1, 4) := by decide
/-- V-L2-EQ-2: the sign counts. -/
theorem test_equals_sign : after (fun s => s.mem.word 5) (vm [1108, 8, -8, 5, 99, 7]) = some 0 := by decide
/-- R150: a Relative operand uses `RB` before the adjustment. -/
theorem test_adjustRelativeBase_old_base : after (fun s => (s.rb, s.pc)) ((vm [209, 1, 99, 7]).setRb 2) = some (9, 2) := by
  decide
/-- V-L2-ARB-5, its second instruction. -/
theorem test_adjustRelativeBase_overflow : after (fun s => (record s, s.rb))
    (((vm [109, 9223372036854775807, 109, 1, 99]).setPc 2).setRb 9223372036854775807) =
    some ((.faulted, some .arithmeticOverflow, 2), 9223372036854775807) := by decide
/-- V-L2-HLT-2: `199` halts, and `PC` advances by 1. -/
theorem test_halt : after (fun s => (s.status, s.pc)) (vm [199]) = some (.halted, 1) := by decide

/-! ## Fetch, faults, host transactions -/

/-- V-L2-DEC-13: the empty program. -/
theorem test_reset_step : after (fun s => (record s, s.mem.len)) State.reset =
    some ((.faulted, some .unknownOpcode, 0), 1) := by decide
/-- V-L2-MEM-5 and MEM-6, `MAX=16`: growth is capped, and an address beyond it faults. -/
theorem test_growth_capped : (next? (stepWith small (vm [4, 10, 99]))).map (fun s => s.mem.len) = some 16 ∧
    (next? (stepWith small (vm [4, 20, 99]))).map record = some (.faulted, some .resourceExhausted, 0) := by decide
/-- V-L2-OUT-6, with a log of one word already full. -/
theorem test_log_full : (next? (stepWith small ((vm [104, 5, 99]).appendOl 1))).map (fun s => (record s, s.ol)) =
    some ((.faulted, some .resourceExhausted, 0), [1]) := by decide
theorem test_withFetchWord : after (fun s => (s.status, s.ol)) (State.reset.withFetchWord 8 4) =
    some (.suspendedOnOutput, [4]) := by decide
/-- V-L1-5. -/
theorem test_run_suspends_and_halts : (run hardware 4 (vm [104, 7, 104, 8, 99])).map (fun s => (s.status, s.ol, s.pc)) =
    some (.halted, [7, 8], 5) := by decide
/-- V-L2-HOST-1. -/
theorem test_get_last_output_empty : getLastOutput (vm [99]) =
    (enterFault .emptyOutputLog 0 (vm [99]), .error .emptyOutputLog) := by rfl
/-- V-L2-HOST-7, with a capacity of one. -/
theorem test_queue_full : (fun s => (record s, s.iq)) (setInputs small [1, 2, 3] (vm [99])) =
    ((.faulted, some .resourceExhausted, 0), []) := by decide
/-- V-L2-HOST-8. -/
theorem test_pipeline : pipeline hardware 6 [3, 11, 3, 12, 1, 11, 12, 11, 4, 11, 99, 0, 0] [1, 2, 3] = .answer 6 := by decide
/-- R172 with one instance: it outputs the sum of its seed and the first signal, and halts in its second call. -/
theorem test_ring : ring hardware 9 [3, 11, 3, 12, 1, 11, 12, 11, 4, 11, 99, 0, 0] [5] = .answer 5 := by decide
/-- R160: an element outside the word range, and the model's own refusal (notes/assumptions/7.md). -/
theorem test_new_refuses : newInstance hardware [99, 9223372036854775808] = .refused .programElementOutOfRange ∧
    newInstance small (List.replicate 17 0) = .refused .programLongerThanMemory := ⟨rfl, rfl⟩

/-! ## Witnesses: values that meet the hypotheses of each obligation, clause by clause -/

/-- The ends of the word range, and the first values outside it. -/
theorem witness_OverflowCheckHasThreeCases :
    inRange hardware.wordBits (-9223372036854775808) = true ∧ inRange hardware.wordBits 9223372036854775807 = true ∧
    (inRange hardware.wordBits 9223372036854775808 = false ∧ hardware.overflow = .fault) ∧
    (inRange wrapping.wordBits (-9223372036854775809) = false ∧ wrapping.overflow = .wrap) := by decide

theorem witness_OverflowCheckAnswersACongruentWord :
    wrapping.Admitted ∧ ovf wrapping 9223372036854775808 = .ok (-9223372036854775808) := ⟨wrapping_admitted, rfl⟩

theorem witness_DigitIsTheDecimalDigit :
    (0 : Int) ≤ 99 ∧ (99 : Int) < (10 : Int) ^ 2 ∧ digit 99 2 = 0 ∧ digit 100 2 = 1 ∧ (-1 : Int) < 0 := by decide

theorem witness_OpcodeIsTheLowTwoDigits :
    (-1 : Int) < 0 ∧ ((0 : Int) ≤ 22201 ∧ (22201 : Int) % 100 = 1) ∧ (1102 : Int) % 100 = 2 ∧ (203 : Int) % 100 = 3 ∧
    (100004 : Int) % 100 = 4 ∧ (1105 : Int) % 100 = 5 ∧ (1006 : Int) % 100 = 6 ∧ (7 : Int) % 100 = 7 ∧
    (1008 : Int) % 100 = 8 ∧ (209 : Int) % 100 = 9 ∧ (199 : Int) % 100 = 99 ∧
    ((0 : Int) ≤ 0 ∧ (0 : Int) % 100 = 0) ∧ (10 ≤ (110 : Int) % 100 ∧ (110 : Int) % 100 ≤ 98) ∧
    (10 ≤ (30098 : Int) % 100 ∧ (30098 : Int) % 100 ≤ 98) := by decide

theorem witness_DigitsAboveUsedSlotsIgnored :
    decodeOpcode 99 = .ok .f0 ∧ decodeOpcode 4 = .ok (.f1 .output) ∧ decodeOpcode 1105 = .ok (.f2 .jumpIfTrue) ∧
    decodeOpcode 1001 = .ok (.f3 .add) ∧ (0 : Int) ≤ 99 ∧ (0 : Int) ≤ 987 := by decide

/-- Digit 3 in the one slot of Input, in the last slot of a jump, in the last slot of Add; digit 9 in its first. -/
theorem witness_BadModeDigitRejected :
    (decodeOpcode 303 = .ok (.f1 .input) ∧ 0 < 1 ∧ 3 ≤ digit 303 2) ∧
    (decodeOpcode 3105 = .ok (.f2 .jumpIfTrue) ∧ 1 < 2 ∧ 3 ≤ digit 3105 3) ∧
    (decodeOpcode 30001 = .ok (.f3 .add) ∧ 2 < 3 ∧ 3 ≤ digit 30001 4) ∧
    (decodeOpcode 901 = .ok (.f3 .add) ∧ 0 < 3 ∧ 3 ≤ digit 901 2) := by decide

theorem witness_EveryAcceptedWordHasACanonicalWord :
    decodeHeader 5001001 = .ok (.f3 .add .position .immediate .position) := by rfl

/-- The addresses where the clauses meet, with `MAX_MEM_WORDS = 16`: -1, 0, 15 and 16; the end of memory at 3. -/
theorem witness_AccessChecksGrowsAndMovesOneWord :
    small.Admitted ∧ (vm [4, 10, 99]).mem.wf = true ∧ (-1 : Int) < 0 ∧
    belowCapacity 0 small.maxMemWords = true ∧ belowCapacity 15 small.maxMemWords = true ∧
    belowCapacity 16 small.maxMemWords = false ∧ (vm [4, 10, 99]).mem.len = 3 ∧
    (∃ v m', access small 15 none (vm [4, 10, 99]).mem = .ok (v, m')) ∧
    writeAddr small ⟨.position, 3⟩ (vm [4, 10, 99]) = .ok 3 (vm [4, 10, 99]) ∧
    (∃ w m', access small 3 (some 7) (vm [4, 10, 99]).mem = .ok (w, m')) :=
  ⟨small_admitted, by decide, by decide, by decide, by decide, by decide, by decide, ⟨_, _, rfl⟩, rfl, ⟨_, _, rfl⟩⟩

/-- Both ends of a request: a fault at 16, a growing read at 15. -/
theorem witness_GrowthUnitRefinesAccess :
    small.Admitted ∧ access small 16 none (vm [4, 10, 99]).mem = .error .resourceExhausted ∧
    (∃ v m', access small 15 none (vm [4, 10, 99]).mem = .ok (v, m')) := ⟨small_admitted, rfl, ⟨_, _, rfl⟩⟩

/-- A program that just fits, the empty program, and an element one beyond the range. -/
theorem witness_NewInstanceIsTheResetState :
    withinCapacity (List.replicate 16 (0 : Int)).length small.maxMemWords = true ∧
    (∀ w ∈ List.replicate 16 (0 : Int), inRange small.wordBits w = true) ∧
    (∀ w ∈ ([] : List Int), inRange small.wordBits w = true) ∧
    withinCapacity ([99, 9223372036854775808] : List Int).length small.maxMemWords = true ∧
    (∃ w ∈ ([99, 9223372036854775808] : List Int), inRange small.wordBits w = false) := by decide

theorem witness_ValueOfAnOperand :
    small.Admitted ∧ ovf small (-1 + (vm [99]).rb) = .ok (-1) ∧
    ovf small (9223372036854775807 + ((vm [99]).setRb 1).rb) = .error .arithmeticOverflow ∧
    belowCapacity (15 : Int).toNat small.maxMemWords = true ∧ belowCapacity (16 : Int).toNat small.maxMemWords = false ∧
    (vm [99]).mem.len ≤ (1 : Int).toNat := ⟨small_admitted, rfl, rfl, rfl, rfl, by decide⟩

theorem witness_WriteAddressOfAnOperand :
    ovf small (5 + (vm [99]).rb) = .ok 5 ∧
    ovf small (9223372036854775807 + ((vm [99]).setRb 1).rb) = .error .arithmeticOverflow ∧ (-1 : Int) < 0 ∧
    belowCapacity (15 : Int).toNat small.maxMemWords = true ∧ belowCapacity (16 : Int).toNat small.maxMemWords = false ∧
    writeAddr small ⟨.relative, 15⟩ (vm [99]) = .ok 15 (vm [99]) := ⟨rfl, rfl, by decide, rfl, rfl, rfl⟩

theorem witness_RelativeDenotesTheCellAtBasePlusRaw :
    inRange hardware.wordBits (50 + ((vm [99]).setRb 105).rb) = true := by decide

/-- `ADD #(WMAX-1), [0], [rb+7]` at the last `PC` from which the advance does not overflow; the sum is `WMAX`, memory grows. -/
theorem witness_AddStoresTheSum :
    ((((vm [1]).setPc 9223372036854775803).setRb 3).mem.wf = true) ∧
    (∃ s2, ThreeOperandsResolve (imm 9223372036854775806) (pos 0) (rel 7)
      (((vm [1]).setPc 9223372036854775803).setRb 3) 9223372036854775806 1 10 s2) ∧
    inRange 64 (9223372036854775806 + 1) = true ∧ inRange 64 (9223372036854775803 + 4) = true :=
  ⟨by decide, ⟨_, _, rfl, rfl, rfl⟩, by decide, by decide⟩

/-- V-L2-MUL-4. -/
theorem witness_MultiplyStoresTheProduct :
    (vm [1102, 3037000499, 3037000499, 5, 99, 0]).mem.wf = true ∧
    (∃ s2, ThreeOperandsResolve (imm 3037000499) (imm 3037000499) (pos 5) (vm [1102, 3037000499, 3037000499, 5, 99, 0])
      3037000499 3037000499 5 s2) ∧
    inRange 64 (3037000499 * 3037000499) = true ∧ inRange 64 ((vm [1102, 3037000499, 3037000499, 5, 99, 0]).pc + 4) = true :=
  ⟨by decide, ⟨_, _, rfl, rfl, rfl⟩, by decide, by decide⟩

/-- Equal operands and operands one apart, read from memory that grows. -/
theorem witness_LessThanStoresOneOrZero :
    (vm [5, 6]).mem.wf = true ∧ inRange 64 ((vm [5, 6]).pc + 4) = true ∧
    (∃ s2, ThreeOperandsResolve (pos 0) (pos 1) (pos 9) (vm [5, 6]) 5 6 9 s2) ∧
    (∃ s2, ThreeOperandsResolve (pos 8) (imm 0) (pos 9) (vm [5, 6]) 0 0 9 s2) :=
  ⟨by decide, by decide, ⟨_, _, rfl, rfl, rfl⟩, ⟨_, _, rfl, rfl, rfl⟩⟩

theorem witness_EqualsStoresOneOrZero :
    (vm [5, 6]).mem.wf = true ∧ inRange 64 ((vm [5, 6]).pc + 4) = true ∧
    (∃ s2, ThreeOperandsResolve (pos 0) (imm 5) (pos 0) (vm [5, 6]) 5 5 0 s2) ∧
    (∃ s2, ThreeOperandsResolve (rel 0) (rel 1) (rel 1) (vm [5, 6]) 5 6 1 s2) :=
  ⟨by decide, by decide, ⟨_, _, rfl, rfl, rfl⟩, ⟨_, _, rfl, rfl, rfl⟩⟩

/-- V-L2-IN-4, its second instruction. -/
theorem witness_InputStoresTheQueueHead :
    ((((vm [109, 4, 203, 1, 99, 0]).setIq [7]).setPc 2).setRb 4).mem.wf = true ∧
    writeAddr hardware (rel 1) ((((vm [109, 4, 203, 1, 99, 0]).setIq [7]).setPc 2).setRb 4) =
      .ok 5 ((((vm [109, 4, 203, 1, 99, 0]).setIq [7]).setPc 2).setRb 4) ∧
    ((((vm [109, 4, 203, 1, 99, 0]).setIq [7]).setPc 2).setRb 4).iq = 7 :: [] ∧ inRange 64 (2 + 2) = true :=
  ⟨by decide, rfl, rfl, by decide⟩

theorem witness_OutputAppendsAndSuspends :
    (∃ r, readValue hardware (pos 50) ((vm [4, 50, 99]).setPc 9223372036854775805) = .ok 0 r) ∧
    inRange 64 (9223372036854775805 + 2) = true := ⟨⟨_, rfl⟩, by decide⟩

/-- Taken (condition -5, target -1) and not taken, at the last `PC` from which the advance does not overflow. -/
theorem witness_JumpIfTrueJumpsOnNonZero :
    (∃ s1 r, readValue hardware (imm (-5)) (vm [99]) = .ok (-5) s1 ∧ readValue hardware (imm (-1)) s1 = .ok (-1) r) ∧
    (-5 : Int) ≠ 0 ∧
    (∃ s1 r, readValue hardware (pos 9) ((vm [99]).setPc 9223372036854775804) = .ok 0 s1 ∧
      readValue hardware (pos 0) s1 = .ok 99 r) ∧
    inRange 64 (9223372036854775804 + 3) = true :=
  ⟨⟨_, _, rfl, rfl⟩, by decide, ⟨_, _, rfl, rfl⟩, by decide⟩

theorem witness_JumpIfFalseJumpsOnZero :
    (∃ s1 r, readValue hardware (rel 9) (vm [99]) = .ok 0 s1 ∧ readValue hardware (imm (-1)) s1 = .ok (-1) r) ∧
    (∃ s1 r, readValue hardware (pos 0) ((vm [99]).setPc 9223372036854775804) = .ok 99 s1 ∧
      readValue hardware (imm 0) s1 = .ok 0 r) ∧
    (99 : Int) ≠ 0 ∧ inRange 64 (9223372036854775804 + 3) = true :=
  ⟨⟨_, _, rfl, rfl⟩, ⟨_, _, rfl, rfl⟩, by decide, by decide⟩

/-- `RB` reaches `WMAX`. -/
theorem witness_AdjustRelativeBaseAddsToRb :
    (∃ r, readValue hardware (rel 0) (vm [9223372036854775807]) = .ok 9223372036854775807 r) ∧
    inRange 64 ((vm [9223372036854775807]).rb + 9223372036854775807) = true ∧
    inRange 64 ((vm [9223372036854775807]).pc + 2) = true := ⟨⟨_, rfl⟩, by decide, by decide⟩

theorem witness_HaltStopsForGood :
    inRange 64 (((vm [99]).setPc 9223372036854775806).pc + 1) = true ∧
    (((vm [99]).setPc 9223372036854775807).status ≠ .faulted ∧
      inRange 64 (((vm [99]).setPc 9223372036854775807).pc + 1) = false) ∧
    ((vm [99]).setStatus .halted).status = .halted ∧ ((0 : Int) ≤ 98799 ∧ (98799 : Int) % 100 = 99) := by decide

theorem witness_PseudoInstructionsDoWhatTheyName :
    inRange 64 ((vm [99]).pc + 3) = true ∧ (∃ r, readValue hardware (pos 0) (vm [99]) = .ok 99 r) ∧
    (∃ r, readValue hardware (pos 4) (vm [99]) = .ok 0 r ∧ writeAddr hardware (pos 9) r = .ok 9 r) ∧
    inRange 64 0 = true ∧ inRange 64 ((vm [99]).pc + 4) = true :=
  ⟨by decide, ⟨_, rfl⟩, ⟨_, rfl, rfl⟩, by decide, by decide⟩

/-- A fault in each slot, in the sum, in the product and in the advance. -/
theorem witness_ThreeOperandFaultsInOrder :
    small.Admitted ∧ (vm [99]).status ≠ .faulted ∧
    readValue small (pos (-1)) (vm [99]) = .raise .negativeAddress (vm [99]) ∧
    readValue small (imm 9223372036854775807) (vm [99]) = .ok 9223372036854775807 (vm [99]) ∧
    readValue small (pos 16) (vm [99]) = .raise .resourceExhausted (vm [99]) ∧
    writeAddr small (imm 0) (vm [99]) = .raise .invalidWriteTarget (vm [99]) ∧
    writeAddr small (pos 15) (vm [99]) = .ok 15 (vm [99]) ∧ small.overflow = .fault ∧
    inRange small.wordBits (9223372036854775807 + 1) = false ∧ inRange small.wordBits (9223372036854775807 * 2) = false ∧
    inRange small.wordBits (((vm [99]).setPc 9223372036854775804).pc + 4) = false :=
  ⟨small_admitted, by decide, rfl, rfl, rfl, rfl, rfl, rfl, by decide, by decide, by decide⟩

/-- V-L2-JT-6 in its second slot, and the advance of a jump not taken, of both kinds. -/
theorem witness_JumpFaultsInOrder :
    hardware.Admitted ∧ (vm [105, 0, -1, 99]).status ≠ .faulted ∧
    readValue hardware (pos (-1)) (vm [105, 0, -1, 99]) = .raise .negativeAddress (vm [105, 0, -1, 99]) ∧
    readValue hardware (imm 0) (vm [105, 0, -1, 99]) = .ok 0 (vm [105, 0, -1, 99]) ∧
    readValue hardware (imm 1) (vm [105, 0, -1, 99]) = .ok 1 (vm [105, 0, -1, 99]) ∧ hardware.overflow = .fault ∧
    inRange hardware.wordBits (((vm [99]).setPc 9223372036854775805).pc + 3) = false :=
  ⟨hardware_admitted, by decide, rfl, rfl, rfl, rfl, by decide⟩

theorem witness_InputFaultsInOrder :
    hardware.Admitted ∧ (vm [103, 3, 99, 0]).status ≠ .faulted ∧
    writeAddr hardware (imm 3) (vm [103, 3, 99, 0]) = .raise .invalidWriteTarget (vm [103, 3, 99, 0]) ∧
    writeAddr hardware (pos 3) (vm [103, 3, 99, 0]) = .ok 3 (vm [103, 3, 99, 0]) ∧ (vm [103, 3, 99, 0]).iq = [] ∧
    ((vm [99]).setIq [1]).iq ≠ [] ∧ hardware.overflow = .fault ∧
    inRange hardware.wordBits (((vm [99]).setPc 9223372036854775806).pc + 2) = false :=
  ⟨hardware_admitted, by decide, rfl, rfl, rfl, by decide, rfl, by decide⟩

theorem witness_OutputFaultsInOrder :
    small.Admitted ∧ (vm [99]).status ≠ .faulted ∧
    readValue small (pos 16) (vm [99]) = .raise .resourceExhausted (vm [99]) ∧
    readValue small (imm 5) (vm [99]) = .ok 5 (vm [99]) ∧
    belowCapacity ((vm [99]).appendOl 1).ol.length small.olCapacity = false ∧
    belowCapacity (vm [99]).ol.length small.olCapacity = true ∧ small.overflow = .fault ∧
    inRange small.wordBits (((vm [99]).setPc 9223372036854775806).pc + 2) = false :=
  ⟨small_admitted, by decide, rfl, rfl, by decide, by decide, rfl, by decide⟩

theorem witness_AdjustRelativeBaseFaultsInOrder :
    hardware.Admitted ∧ (vm [99]).status ≠ .faulted ∧
    readValue hardware (rel (-1)) (vm [99]) = .raise .negativeAddress (vm [99]) ∧
    readValue hardware (imm 1) (vm [99]) = .ok 1 (vm [99]) ∧ hardware.overflow = .fault ∧
    inRange hardware.wordBits (((vm [99]).setRb 9223372036854775807).rb + 1) = false ∧
    inRange hardware.wordBits (((vm [99]).setPc 9223372036854775806).pc + 2) = false :=
  ⟨hardware_admitted, by decide, rfl, rfl, rfl, by decide, by decide⟩

/-- An instruction of one word and one of four, the longest, whose last word is the last cell; and one whose operand word lies
beyond the end, at the last `PC` the premise admits, in an instance that is resumed. -/
theorem witness_StepRunsTheDecodedInstruction :
    ((vm [99]).ended = false ∧ 0 ≤ (vm [99]).pc ∧ inRange 64 ((vm [99]).pc + 1 - 1) = true ∧
      decode (wordsAtPc (vm [99])) = .ok (.halt, [0, 0, 0])) ∧
    (0 + Instr.width (.add (imm 2) (imm 3) (pos 0)) ≤ (vm [1101, 2, 3, 0]).mem.len ∧
      decode (wordsAtPc (vm [1101, 2, 3, 0])) = .ok (.add (imm 2) (imm 3) (pos 0), [])) ∧
    (let s := (vmAt 9223372036854775806 [(9223372036854775806, 4)] 9223372036854775807).setStatus .suspendedOnOutput;
      s.ended = false ∧ 0 ≤ s.pc ∧ inRange 64 (s.pc + 2 - 1) = true ∧
      decode (wordsAtPc s) = .ok (.output (pos 0), [0, 0])) :=
  ⟨⟨by decide, by decide, by decide, rfl⟩, ⟨by decide, rfl⟩, ⟨by decide, by decide, by decide, rfl⟩⟩

/-- Each fault of fetch and decode: `PC` -1, at the capacity, in the word range but beyond the end. Then the first operand word that
cannot be read, in slot 0, 1 and 2: `PC` at `WMAX`, `WMAX-1` and `WMAX-2` under both policies, and 15, 14 and 13 below a capacity
of 16. -/
theorem witness_FetchAndDecodeFaultsInOrder :
    small.Admitted ∧ ((vm [99]).setPc (-1)).ended = false ∧ ((vm [99]).setPc (-1)).pc < 0 ∧
    belowCapacity ((vm [99]).setPc 16).pc.toNat small.maxMemWords = false ∧
    belowCapacity ((vm [99]).setPc 15).pc.toNat small.maxMemWords = true ∧
    decodeHeader ((vm [-99]).mem.word 0) = .error .unknownOpcode ∧
    decodeHeader ((vm [301]).mem.word 0) = .error .unknownAddressingMode ∧
    (vm [99]).mem.len ≤ ((vm [99]).setPc 1).pc.toNat ∧
    hardware.Admitted ∧ hardware.overflow = .fault ∧ wrapping.Admitted ∧ wrapping.overflow = .wrap ∧
    (∀ j : Nat, j < 3 →
      (let s := vmAt (9223372036854775807 - j : Nat) [(9223372036854775807 - j, 1101)] 9223372036854775808;
        s.ended = false ∧ decodeHeader (s.mem.word s.pc.toNat) = .ok (.f3 .add .immediate .immediate .position) ∧
        j < (Header.f3 .add .immediate .immediate .position).slots ∧
        (∀ k < j, inRange hardware.wordBits (s.pc + 1 + k) = true) ∧ inRange wrapping.wordBits s.pc = true ∧
        inRange hardware.wordBits (s.pc + 1 + j) = false) ∧
      (let s := vmAt (15 - j : Nat) [(15 - j, 1101)] 16;
        s.ended = false ∧ decodeHeader (s.mem.word s.pc.toNat) = .ok (.f3 .add .immediate .immediate .position) ∧
        (∀ k < j, inRange small.wordBits (s.pc + 1 + k) = true ∧
          belowCapacity (s.pc.toNat + 1 + k) small.maxMemWords = true) ∧
        inRange small.wordBits (s.pc + 1 + j) = true ∧ belowCapacity (s.pc.toNat + 1 + j) small.maxMemWords = false)) :=
  ⟨small_admitted, by decide, by decide, by decide, by decide, rfl, rfl, by decide, hardware_admitted, rfl,
    wrapping_admitted, rfl, by decide⟩

/-- A fault of the operation, after a read that grew memory (V-L2-PRI-4 with a Position source). -/
theorem witness_FaultingStepCommitsNothing :
    hardware.Admitted ∧ (vm [1001, 50, 1, -1]).status ≠ .faulted ∧
    (∃ t, stepWith hardware (vm [1001, 50, 1, -1]) = .next t ∧ t.status = .faulted ∧ t.mem.len = 100) :=
  ⟨hardware_admitted, by decide, ⟨_, rfl, rfl, by decide⟩⟩

/-- A jump of each kind taken and not taken, and an instruction that is no jump. -/
theorem witness_PcAdvancesByTheWidth :
    wrapping.Admitted ∧ (vm [99]).status ≠ .faulted ∧
    (∃ t, execWith wrapping (.jumpIfTrue (imm 1) (imm (-1))) (vm [99]) = .next t ∧ t.status ≠ .faulted) ∧
    (∃ t, execWith wrapping (.jumpIfTrue (imm 0) (imm 7)) ((vm [99]).setPc 9223372036854775807) = .next t ∧
      t.status ≠ .faulted) ∧
    (∃ t, execWith wrapping (.jumpIfFalse (imm 0) (pos 0)) (vm [99]) = .next t ∧ t.status ≠ .faulted) ∧
    (∃ t, execWith wrapping (.jumpIfFalse (imm 1) (imm 7)) (vm [99]) = .next t ∧ t.status ≠ .faulted) ∧
    (∃ t, execWith wrapping .halt (vm [99]) = .next t ∧ t.status ≠ .faulted) :=
  ⟨wrapping_admitted, by decide, ⟨_, rfl, by decide⟩, ⟨_, rfl, by decide⟩, ⟨_, rfl, by decide⟩, ⟨_, rfl, by decide⟩,
    ⟨_, rfl, by decide⟩⟩

/-- One instruction outside each clause's exception, and an output, which is inside one of each. -/
theorem witness_EachElementHasItsOneWriter :
    hardware.Admitted ∧ (∃ t, execWith hardware .halt (vm [99]) = .next t) ∧
    (∀ a, Instr.halt ≠ .adjustRelativeBase a) ∧ (∀ d, Instr.halt ≠ .input d) ∧ (∀ a, Instr.halt ≠ .output a) ∧
    Instr.writeOperand (.output (pos 0)) = none ∧ (∃ t, execWith hardware (.output (pos 0)) (vm [99]) = .next t) ∧
    (∀ a, Instr.input (pos 0) ≠ .output a) ∧ Instr.input (pos 0) ≠ .halt ∧
    (∃ t, execWith hardware (.input (pos 0)) (vm [99]) = .next t) :=
  ⟨hardware_admitted, ⟨_, rfl⟩, by simp, by simp, by simp, rfl, ⟨_, rfl⟩, by simp, by simp, ⟨_, rfl⟩⟩

/-- One step that grows memory, outputs and suspends, then one that halts. -/
theorem witness_MemoryNeverShrinks : hardware.Admitted ∧
    (∃ t, Reaches hardware (vm [4, 50, 99]) t ∧ t.status = .halted ∧ t.mem.len = 100) :=
  ⟨hardware_admitted, ⟨_, .step (.step (.refl _) rfl) rfl, by decide, by decide⟩⟩

theorem witness_OutputLogIsAppendOnly : hardware.Admitted ∧
    (∃ t, Reaches hardware ((vm [4, 50, 99]).appendOl 8) t ∧ t.ol = [8, 0]) :=
  ⟨hardware_admitted, ⟨_, .step (.refl _) rfl, by decide⟩⟩

/-- A run that pops one word of two. -/
theorem witness_InputQueueIsConsumedInOrder : hardware.Admitted ∧
    (∃ t, Reaches hardware ((vm [3, 3, 99, 0]).setIq [42, 7]) t ∧ t.iq = [7]) :=
  ⟨hardware_admitted, ⟨_, .step (.refl _) rfl, by decide⟩⟩

/-- A legal state that is not the reset state. -/
theorem legal_vm : ((vm [3, 3, 99, 0]).setIq [42]).Legal hardware where
  memWf := by decide
  cells := by decide
  memLen := by decide
  pc := by decide
  rb := by decide
  faultPc := by decide
  iq := fun w h => by simp at h; subst h; decide
  ol := by simp [wordsInRange, vm, State.reset]
  iqLen := by decide
  olLen := by decide
  record := by decide
  noRecord := by decide

theorem witness_FetchedInstructionIsWellFormed : hardware.Admitted ∧ ((vm [3, 3, 99, 0]).setIq [42]).Legal hardware ∧
    (∃ r, fetchInstr hardware ((vm [3, 3, 99, 0]).setIq [42]) = .ok (.input (pos 3)) r) :=
  ⟨hardware_admitted, legal_vm, ⟨_, rfl⟩⟩

theorem witness_LegalStateKeptByEveryStep : hardware.Admitted ∧ ((vm [3, 3, 99, 0]).setIq [42]).Legal hardware ∧
    (∃ t, stepWith hardware ((vm [3, 3, 99, 0]).setIq [42]) = .next t) ∧
    (∃ t, step ((vm [3, 3, 99, 0]).setIq [42]) = .next t) := ⟨hardware_admitted, legal_vm, ⟨_, rfl⟩, ⟨_, rfl⟩⟩

theorem witness_LegalStateKeptByEveryTransaction : hardware.Admitted ∧
    (∃ s, newInstance hardware [3, 3, 99, 0] = .next s) ∧ ((vm [3, 3, 99, 0]).setIq [42]).Legal hardware ∧
    wordsInRange hardware [9223372036854775807] ∧
    (∃ t r, transact hardware 3 .run ((vm [3, 3, 99, 0]).setIq [42]) = some (t, r)) ∧
    (∃ t r, transact hardware 0 (.setInputs [9223372036854775807]) ((vm [3, 3, 99, 0]).setIq [42]) = some (t, r)) :=
  ⟨hardware_admitted, ⟨_, rfl⟩, legal_vm, fun w h => by simp at h; subst h; decide, ⟨_, _, rfl⟩, ⟨_, _, rfl⟩⟩

theorem witness_StoppedInstancesStayStopped :
    ((vm [99]).setStatus .halted).ended = true ∧
    (∃ t, Reaches hardware ((vm [99]).setStatus .halted) t ∧ t.pc = 0) ∧
    (enterFault .emptyOutputLog 0 (vm [99])).status = .faulted ∧
    (∃ t r, transact hardware 1 .run (enterFault .emptyOutputLog 0 (vm [99])) = some (t, r)) ∧
    (∃ t r, transact hardware 0 (.setInputs [1]) (enterFault .emptyOutputLog 0 (vm [99])) = some (t, r)) :=
  ⟨rfl, ⟨_, .step (.refl _) rfl, rfl⟩, rfl, ⟨_, _, rfl⟩, ⟨_, _, rfl⟩⟩

/-- A step that outputs and one that does not. -/
theorem witness_SuspendsExactlyOnOutput : hardware.Admitted ∧ (vm [104, 7, 99]).ended = false ∧
    (∃ t, stepWith hardware (vm [104, 7, 99]) = .next t ∧ t.status = .suspendedOnOutput) ∧
    (∃ t, stepWith hardware (vm [99]) = .next t ∧ t.status = .halted) :=
  ⟨hardware_admitted, rfl, ⟨_, rfl, rfl⟩, ⟨_, rfl, rfl⟩⟩

/-- The policies of R43 and of the bare law part at a read of cell 50: 100 words and 51. -/
theorem witness_GrowthPolicyIsUnobservable : hardware.Admitted ∧ growingLeast.Admitted ∧
    DifferInGrowth hardware growingLeast ∧ (vm [4, 50, 99]).mem.wf = true ∧ AgreeButLen (vm [4, 50, 99]) (vm [4, 50, 99]) ∧
    (∃ t, stepWith hardware (vm [4, 50, 99]) = .next t ∧ t.mem.len = 100) ∧
    (∃ t, stepWith growingLeast (vm [4, 50, 99]) = .next t ∧ t.mem.len = 51) :=
  ⟨hardware_admitted, growingLeast_admitted, ⟨rfl, rfl, rfl, rfl, rfl⟩, by decide,
    ⟨fun _ => rfl, rfl, rfl, rfl, rfl, rfl, rfl, rfl⟩, ⟨_, rfl, by decide⟩, ⟨_, rfl, by decide⟩⟩

theorem witness_EnterFaultRecordsTheFirstFault :
    (vm [99]).status ≠ .faulted ∧ (enterFault .inputExhausted 4 (vm [99])).status = .faulted ∧
    (vm [3, 5]).ended = false ∧ (∃ t, stepWith hardware (vm [3, 5]) = .next t ∧ t.status = .faulted) :=
  ⟨by decide, by decide, by decide, ⟨_, rfl, rfl⟩⟩

/-- With a capacity of one: a value that just fits, one too many, and a faulted instance. -/
theorem witness_SetInputsQueuesInOrder :
    (enterFault .inputExhausted 4 (vm [99])).status = .faulted ∧ (vm [99]).status ≠ .faulted ∧
    withinCapacity ((vm [99]).iq.length + [5].length) small.iqCapacity = true ∧
    withinCapacity ((vm [99]).iq.length + [5, 6].length) small.iqCapacity = false ∧ hardware.iqCapacity = none ∧
    ((vm [99]).setStatus .halted).status = .halted ∧
    (∃ t, Reaches hardware (setInputs hardware [5] ((vm [99]).setStatus .halted)) t ∧ t.iq = [5]) :=
  ⟨rfl, by decide, by decide, by decide, rfl, rfl, ⟨_, .step (.refl _) rfl, rfl⟩⟩

theorem witness_GetLastOutputReadsTheNewestEntry :
    ((vm [99]).appendOl 7).ol = [] ++ [7] ∧ ((vm [99]).ol = [] ∧ (vm [99]).status ≠ .faulted) ∧
    ((enterFault .inputExhausted 4 (vm [99])).ol = [] ∧ (enterFault .inputExhausted 4 (vm [99])).status = .faulted) := by
  decide

/-- The last cell of a snapshot. -/
theorem witness_HostReadsChangeNothing : 2 < (memorySnapshot (vm [4, 50, 99])).length ∧
    memorySnapshot (vm [4, 50, 99]) = [4, 50, 99] := by decide

/-- A call that returns at each of its three ends. -/
theorem witness_OneOutputPerRunUntilOutput : hardware.Admitted ∧ (vm [104, 7, 99]).ended = false ∧
    (∃ t, runUntilOutput hardware 1 (vm [104, 7, 99]) = some t ∧ t.status = .suspendedOnOutput) ∧
    (∃ t, runUntilOutput hardware 2 (vm [109, 1, 99]) = some t ∧ t.status = .halted) ∧
    (∃ t, runUntilOutput hardware 1 (vm [0]) = some t ∧ t.status = .faulted) :=
  ⟨hardware_admitted, rfl, ⟨_, rfl, rfl⟩, ⟨_, rfl, rfl⟩, ⟨_, rfl, rfl⟩⟩

theorem witness_RunReturnsOnlyWhenEnded : hardware.Admitted ∧
    (∃ t, run hardware 2 (vm [104, 7, 99]) = some t ∧ t.ol = [7]) := ⟨hardware_admitted, ⟨_, rfl, by decide⟩⟩

theorem witness_RunResultIsUnique : ∃ t, ReturnsFromRunUntilOutput hardware (vm [104, 7, 99]) t := ⟨_, 1, rfl⟩

/-- V-L2-JT-7, and a condition that is negative, at the last `PC` the premise admits. -/
theorem witness_SelfJumpNeverReturns :
    ((vm [1105, 1, 0]).ended = false ∧ 0 ≤ (vm [1105, 1, 0]).pc ∧ inRange 64 ((vm [1105, 1, 0]).pc + 2) = true ∧
      decode (wordsAtPc (vm [1105, 1, 0])) = .ok (.jumpIfTrue ⟨.immediate, 1⟩ ⟨.immediate, (vm [1105, 1, 0]).pc⟩, [0])) ∧
    (let s := vmAt 9223372036854775805
        [(9223372036854775805, 1105), (9223372036854775806, -1), (9223372036854775807, 9223372036854775805)]
        9223372036854775808;
      s.ended = false ∧ inRange 64 (s.pc + 2) = true ∧
      decode (wordsAtPc s) = .ok (.jumpIfTrue ⟨.immediate, -1⟩ ⟨.immediate, s.pc⟩, [0])) :=
  ⟨⟨by decide, by decide, by decide, rfl⟩, ⟨by decide, by decide, rfl⟩⟩

theorem witness_FaultFailsTheComposition :
    (∃ vm0 vm', newInstance hardware [0] = .next vm0 ∧ run hardware 1 (setInputs hardware [5, 0] vm0) = some vm' ∧
      vm'.status = .faulted) ∧
    (∃ vm', runUntilOutput hardware 1 (setInputs hardware [0] (vm [0])) = some vm' ∧ vm'.status = .faulted) :=
  ⟨⟨_, _, rfl, rfl, rfl⟩, ⟨_, rfl, rfl⟩⟩

end Sys2Proof.Tests
end

section
/-! PROOFS. Decimal digits of a word (`00_scope.md` R11). -/

namespace Sys2Proof

/-- `digit` with the power of ten taken among the integers, as R11 writes it. -/
theorem digit_eq (w : Int) (k : Nat) : digit w k = w / (10 : Int) ^ k % 10 := by
  rw [digit, Nat.cast_pow, Nat.cast_ofNat]

theorem digit_eq_zero_of_lt {w : Int} {k : Nat} (h0 : 0 ≤ w) (h : w < (10 : Int) ^ k) : digit w k = 0 := by
  rw [digit_eq, Int.ediv_eq_zero_of_lt h0 h, Int.zero_emod]

/-- A negative word has no opcode; it is rejected before any digit is taken (`40_engine.md` R82). -/
theorem decodeOpcode_of_neg {w : Int} (h : w < 0) : decodeOpcode w = .error .unknownOpcode := by
  rw [decodeOpcode, if_pos h]

/-- Settles O3: `digit` is R11's formula, whose quotient is 0 below the power of ten; a negative word is rejected with its
opcode, before its mode digits. -/
theorem digitIsTheDecimalDigit : Obligations.DigitIsTheDecimalDigit := by
  unfold Obligations.DigitIsTheDecimalDigit
  constructor
  · intro w k h0
    exact ⟨digit_eq w k, digit_eq_zero_of_lt h0⟩
  · intro w h
    exact decodeHeader_error (decodeOpcode_of_neg h)

end Sys2Proof
end

section
/-! PROOFS. Construction, `new(program)` (`10_state.md` R32, `49_host_interface.md` R160). -/

namespace Sys2Proof.Machine

variable {c : Config} {program : List Int}

/-- `MEM_LEN = L` (R32). -/
@[simp] theorem ofProgram_len (program : List Int) : (Memory.ofProgram program).len = program.length := rfl

/-- `MEM[i] = p_i` (R32). -/
theorem ofProgram_word_of_lt {i : Nat} (h : i < program.length) : (Memory.ofProgram program).word i = program[i] := by
  rw [ofProgram_word, List.getD_eq_getElem _ _ h]

/-- Words that fit become `MEM`; every other element of state keeps its value after reset (R32). -/
theorem newInstance_of_words (hfit : withinCapacity program.length c.maxMemWords = true)
    (h : ∀ w ∈ program, inRange c.wordBits w = true) :
    newInstance c program = .next (State.reset.setMem (Memory.ofProgram program)) := by
  rw [newInstance, if_pos (List.all_eq_true.2 h), if_pos hfit]

/-- One element outside the word range and construction is refused, whatever the length (R160). -/
theorem newInstance_of_not_words (h : ∃ w ∈ program, inRange c.wordBits w = false) :
    newInstance c program = .refused .programElementOutOfRange := by
  have hall : ¬ program.all (inRange c.wordBits) = true := by simpa using h
  rw [newInstance, if_neg hall]

/-- Settles O12: a program of words that fits is loaded over the reset state, and the range test comes before all else. -/
theorem newInstanceIsTheResetState : Obligations.NewInstanceIsTheResetState := by
  unfold Obligations.NewInstanceIsTheResetState
  intro c program hfit
  constructor
  · intro hwords
    refine ⟨_, newInstance_of_words hfit hwords, fun i hi => ?_, ?_⟩
    · rw [State.setMem_mem, ofProgram_word_of_lt hi]
    · simp [State.reset, Status.code, faultCode]
  · exact newInstance_of_not_words

end Sys2Proof.Machine
end

section
/-! PROOFS. `Access`, every memory read and write (`20_memory.md` R42). -/

namespace Sys2Proof.Machine

variable {c : Config} {m m' : Memory} {s : State} {addr v : Int} {n : Nat}

/-! ## The memory `Access` leaves -/

/-- Memory is extended exactly when the address is at or beyond `MEM_LEN`. -/
theorem reach_len (c : Config) (n : Nat) (m : Memory) :
    (m.reach c n).len = if n < m.len then m.len else capLen c (c.grow n m.len) := by
  unfold Memory.reach
  split <;> rfl

/-- A store grows memory as a read of the same address does. -/
@[simp] theorem store_len (c : Config) (n : Nat) (v : Int) (m : Memory) : (m.store c n v).len = (m.reach c n).len := rfl

/-- Beyond the old end every word reads as 0. -/
theorem word_of_len_le (h : m.len ≤ n) : m.word n = 0 := if_neg (by omega)

/-! ## `Access` by the answer of its address tests -/

theorem access_of_error {k : FaultKind} (h : checkAddr c addr = .error k) (write : Option Int) :
    access c addr write m = .error k := by
  simp only [access, h]

theorem access_read_of_ok (h : checkAddr c addr = .ok n) :
    access c addr none m = .ok ((m.reach c n).word n, m.reach c n) := by
  simp only [access, h]

theorem access_write_of_ok (h : checkAddr c addr = .ok n) : access c addr (some v) m = .ok (v, m.store c n v) := by
  simp only [access, h]

/-! ## The two callers of `Access` -/

/-- `MemRead` is `Access(addr, read, -)`. -/
theorem memRead_of_access (h : access c addr none s.mem = .ok (v, m')) : memRead c addr s = .ok v (s.setMem m') := by
  simp only [memRead, h]

/-- A Position operand's write address is its raw value, once checked (`40_engine.md` R86). -/
theorem checkAddr_of_writeAddr_position (h : writeAddr c ⟨.position, addr⟩ s = .ok n s) : checkAddr c addr = .ok n :=
  (check_eq_ok.1 h).1

/-- The store of a commit, at the address `write-addr` resolved, is `Access(addr, write, v)`. -/
theorem store_of_access {w : Int} (hn : writeAddr c ⟨.position, addr⟩ s = .ok n s)
    (h : access c addr (some v) s.mem = .ok (w, m')) : s.store c n v = s.setMem m' := by
  rw [access_write_of_ok (checkAddr_of_writeAddr_position hn)] at h
  cases h
  rfl

/-- Settles O10: each clause is the rule about the answer of the address tests; an access that passes them leaves the memory of
`Memory.reach` when it reads and of `Memory.store` when it writes. -/
theorem accessChecksGrowsAndMovesOneWord : Obligations.AccessChecksGrowsAndMovesOneWord := by
  unfold Obligations.AccessChecksGrowsAndMovesOneWord
  intro c m addr write hc hwf
  refine ⟨fun h => access_of_error (checkAddr_negative h) write,
    fun h0 hb => access_of_error (checkAddr_exhausted h0 hb) write, fun h0 hb => ?_, word_of_len_le, ?_⟩
  · have haddr := checkAddr_fine h0 hb
    have hlen := (reach_len_ge hc (m := m) hb).1
    cases write with
    | none =>
      exact ⟨m.reach c addr.toNat, reach_len c _ m, hlen, access_read_of_ok haddr, reach_word hc hb _,
        fun a _ => reach_word hc hb a⟩
    | some v =>
      have hself := store_word_self hc v hb hwf
      refine ⟨m.store c addr.toNat v, (store_len c _ v m).trans (reach_len c _ m), hlen, ?_, hself,
        fun a ha => store_word_ne hc v hb ha⟩
      rw [hself]
      exact access_write_of_ok haddr
  · rintro s rfl
    exact ⟨fun _ _ => memRead_of_access, fun _ _ _ _ => store_of_access⟩

end Sys2Proof.Machine
end

section
/-! PROOFS. Digits above the used slots of an instruction word (`30_encoding.md` R65). -/

namespace Sys2Proof

variable {w k : Int} {m : Nat}

/-- What is added from the place `10^2` up leaves the two digits of the opcode (R82). -/
theorem decodeOpcode_add_above (hw : 0 ≤ w) (hk : 0 ≤ k) (h : 2 ≤ m) :
    decodeOpcode (w + k * 10 ^ m) = decodeOpcode w := by
  have hdvd : (100 : Int) ∣ k * 10 ^ m := Dvd.dvd.mul_left (pow_dvd_pow (10 : Int) h) k
  exact decodeOpcode_congr hw (by positivity) (by omega)

/-- What is added above the digit of a slot leaves its mode (R83). -/
theorem decodeMode_add_above (w k : Int) {slot : Nat} (h : slot + 2 < m) :
    decodeMode (w + k * 10 ^ m) slot = decodeMode w slot := by
  rw [decodeMode, digit_add_above w k h, decodeMode]

/-! ## The header, by the number of operands of its opcode -/

theorem decodeHeader_add_above_f0 (hw : 0 ≤ w) (hk : 0 ≤ k) (ho : decodeOpcode w = .ok .f0) :
    decodeHeader (w + k * 10 ^ 2) = decodeHeader w := by
  rw [decodeHeader_f0 ho, decodeHeader_f0 ((decodeOpcode_add_above hw hk (by decide)).trans ho)]

theorem decodeHeader_add_above_f1 {o : Op1} (hw : 0 ≤ w) (hk : 0 ≤ k) (ho : decodeOpcode w = .ok (.f1 o)) :
    decodeHeader (w + k * 10 ^ 3) = decodeHeader w := by
  rw [decodeHeader_f1 ho, decodeHeader_f1 ((decodeOpcode_add_above hw hk (by decide)).trans ho),
    decodeMode_add_above w k (by decide)]

theorem decodeHeader_add_above_f2 {o : Op2} (hw : 0 ≤ w) (hk : 0 ≤ k) (ho : decodeOpcode w = .ok (.f2 o)) :
    decodeHeader (w + k * 10 ^ 4) = decodeHeader w := by
  rw [decodeHeader_f2 ho, decodeHeader_f2 ((decodeOpcode_add_above hw hk (by decide)).trans ho),
    decodeMode_add_above w k (by decide), decodeMode_add_above w k (by decide)]

theorem decodeHeader_add_above_f3 {o : Op3} (hw : 0 ≤ w) (hk : 0 ≤ k) (ho : decodeOpcode w = .ok (.f3 o)) :
    decodeHeader (w + k * 10 ^ 5) = decodeHeader w := by
  rw [decodeHeader_f3 ho, decodeHeader_f3 ((decodeOpcode_add_above hw hk (by decide)).trans ho),
    decodeMode_add_above w k (by decide), decodeMode_add_above w k (by decide), decodeMode_add_above w k (by decide)]

/-- Settles O5: the digits added stand above the opcode and above the digit of each used slot, and the header is read from
those alone; the rule's four example words are decoded. -/
theorem digitsAboveUsedSlotsIgnored : Obligations.DigitsAboveUsedSlotsIgnored := by
  unfold Obligations.DigitsAboveUsedSlotsIgnored
  refine ⟨?_, ?_, ?_, ?_, rfl, rfl, rfl, rfl⟩
  · intro w k hw hk ho
    exact decodeHeader_add_above_f0 hw hk ho
  · intro w k o hw hk ho
    exact decodeHeader_add_above_f1 hw hk ho
  · intro w k o hw hk ho
    exact decodeHeader_add_above_f2 hw hk ho
  · intro w k o hw hk ho
    exact decodeHeader_add_above_f3 hw hk ho

end Sys2Proof
end

section
/-! PROOFS. `DecodeOpcode` (`40_engine.md` R82). -/

namespace Sys2Proof

variable {w n : Int}

/-- A word that is not negative has the opcode whose number its low two digits write. -/
theorem decodeOpcode_of_number {o : Opcode} (h0 : 0 ≤ w) (hw : w % 100 = n) (hn : opcodeOfNumber n = some o) :
    decodeOpcode w = .ok o := by
  simp only [decodeOpcode, if_neg (not_lt.2 h0), hw, hn]

/-- Digits that are no opcode's number are rejected. -/
theorem decodeOpcode_of_no_number (h0 : 0 ≤ w) (hn : opcodeOfNumber (w % 100) = none) :
    decodeOpcode w = .error .unknownOpcode := by
  simp only [decodeOpcode, if_neg (not_lt.2 h0), hn]

/-- The gaps of the opcode map among two-digit numbers (`30_encoding.md` R62). -/
theorem opcodeOfNumber_eq_none (h : n = 0 ∨ (10 ≤ n ∧ n ≤ 98)) : opcodeOfNumber n = none := by
  simp (disch := omega) only [opcodeOfNumber_eq, if_neg]

/-- Settles O4: the sign is tested first, and then the low two digits are looked up in the opcode map, row by row. -/
theorem opcodeIsTheLowTwoDigits : Obligations.OpcodeIsTheLowTwoDigits := by
  unfold Obligations.OpcodeIsTheLowTwoDigits
  intro w
  have row {n : Int} {o : Opcode} (hn : opcodeOfNumber n = some o) (h0 : 0 ≤ w) (hw : w % 100 = n) :
      decodeOpcode w = .ok o := decodeOpcode_of_number h0 hw hn
  exact ⟨decodeOpcode_of_neg, row rfl, row rfl, row rfl, row rfl, row rfl, row rfl, row rfl, row rfl, row rfl, row rfl,
    fun h0 h => decodeOpcode_of_no_number h0 (opcodeOfNumber_eq_none h)⟩

end Sys2Proof
end

section
/-! PROOFS. Operand resolution, `value(op)` and `write-addr(op)` (`40_engine.md` R85, R86). -/

namespace Sys2Proof.Machine

variable {c : Config} {raw a : Int} {n : Nat} {k : FaultKind} {s t : State}

/-! ## Relative operands, by the answer of `ovf(raw + RB)` -/

theorem readValue_relative_of_ok (h : ovf c (raw + s.rb) = .ok a) : readValue c ⟨.relative, raw⟩ s = memRead c a s := by
  simp only [readValue, h, check_ok, Res.bind_ok]

theorem readValue_relative_of_error (h : ovf c (raw + s.rb) = .error k) :
    readValue c ⟨.relative, raw⟩ s = .raise k s := by
  simp only [readValue, h, check_error, Res.bind_raise]

theorem writeAddr_relative_of_ok (h : ovf c (raw + s.rb) = .ok a) :
    writeAddr c ⟨.relative, raw⟩ s = check (checkAddr c a) s := by
  simp only [writeAddr, resolveAddr, h]

theorem writeAddr_relative_of_error (h : ovf c (raw + s.rb) = .error k) :
    writeAddr c ⟨.relative, raw⟩ s = .raise k s := by
  simp only [writeAddr, resolveAddr, h, check_error]

/-! ## The two accesses -/

/-- A read below the capacity answers the word held, and memory has grown to hold the address (`20_memory.md` R42). -/
theorem memRead_grows (hc : c.Admitted) (h0 : 0 ≤ a) (hb : belowCapacity a.toNat c.maxMemWords = true) :
    ∃ t, memRead c a s = .ok (s.mem.word a.toNat) t ∧ GrownFrom s t ∧ a.toNat < t.mem.len := by
  have hread := memRead_of_ok hc (s := s) (checkAddr_fine h0 hb)
  exact ⟨_, hread, (memRead_grown hc hread).grownFrom hc, (reach_len_ge hc hb).1⟩

/-- The write of a commit, at the address `write-addr` resolved, is an access that passes its address tests (R86). -/
theorem access_of_writeAddr {o : Operand} (h : writeAddr c o s = .ok n t) (v : Int) :
    access c n (some v) s.mem = .ok (v, s.mem.store c n v) :=
  access_write_of_ok (checkAddr_fine (Int.natCast_nonneg n) (writeAddr_ok h).2)

/-- Settles O13: each mode by its equation, and `MemRead` by the answer of its address tests. -/
theorem valueOfAnOperand : Obligations.ValueOfAnOperand := by
  unfold Obligations.ValueOfAnOperand
  intro c raw s hc
  exact ⟨rfl, rfl, fun _ => readValue_relative_of_ok, fun _ => readValue_relative_of_error,
    fun _ h => memRead_raise.2 ⟨checkAddr_negative h, rfl⟩,
    fun _ h0 hb => memRead_raise.2 ⟨checkAddr_exhausted h0 hb, rfl⟩,
    fun _ h0 hb => ⟨memRead_grows hc h0 hb, word_of_len_le⟩⟩

/-- Settles O14: each mode by its equation, `CheckAddr` by its three cases; an address that resolved has passed the tests of the
access at commit. -/
theorem writeAddressOfAnOperand : Obligations.WriteAddressOfAnOperand := by
  unfold Obligations.WriteAddressOfAnOperand
  intro c raw s
  exact ⟨rfl, rfl, fun _ => writeAddr_relative_of_ok, fun _ => writeAddr_relative_of_error,
    fun _ => checkAddr_negative, fun _ => checkAddr_exhausted, fun _ => checkAddr_fine,
    fun _ n v _ h => ⟨(writeAddr_ok h).1, s.mem.store c n v, access_of_writeAddr h v, rfl⟩⟩

end Sys2Proof.Machine
end

section
/-! PROOFS. The advance of `PC` (`40_engine.md` R88). -/

namespace Sys2Proof.Machine

variable {c : Config} {i : Instr} {s t : State}

/-- `i` is the conditional jump to `tg` that is taken when `taken` holds of the value of `a` (`43_control.md` R120, R121). -/
def JumpsWhen (taken : Int → Bool) (a tg : Operand) (i : Instr) : Prop :=
  (i = .jumpIfTrue a tg ∧ taken = fun x => decide (x ≠ 0)) ∨ (i = .jumpIfFalse a tg ∧ taken = fun x => decide (x = 0))

/-- A jump has no write operand and three words (`30_encoding.md` R63, R67). -/
theorem JumpsWhen.shape {taken : Int → Bool} {a tg : Operand} (h : JumpsWhen taken a tg i) :
    i.writeOperand = none ∧ i.width = 3 := by
  rcases h with ⟨rfl, _⟩ | ⟨rfl, _⟩ <;> exact ⟨rfl, rfl⟩

/-- The rule of R88 over the cases of `Execute`: without a fault, what is no jump advances by its width, and a jump reads its two
operands and goes to its target or advances. -/
theorem ExecCase.pc_cases (h : ExecCase c s t i) (hf : t.status ≠ .faulted) :
    ((∀ taken a tg, ¬ JumpsWhen taken a tg i) ∧ ovf c (s.pc + i.width) = .ok t.pc) ∨
    (∃ taken a tg x target s1 s2, JumpsWhen taken a tg i ∧
      readValue c a s = .ok x s1 ∧ readValue c tg s1 = .ok target s2 ∧
      if taken x then t.pc = target else ovf c (s.pc + i.width) = .ok t.pc) := by
  cases h with
  | fault k r hr ht => exact absurd (ht ▸ enterFault_status r k s.pc) hf
  | store d n v npc r hi hr hin hd hn hv hnpc ht =>
    refine .inl ⟨fun _ _ _ hj => ?_, ht ▸ hnpc⟩
    simp [hj.shape.1] at hi
  | input d n v npc rest hd hn hq hnpc ht => exact .inl ⟨by simp [JumpsWhen], ht ▸ hnpc⟩
  | output a v npc r hr hv hroom hnpc ht => exact .inl ⟨by simp [JumpsWhen], ht ▸ hnpc⟩
  | jump a tg taken x target npc s1 s2 hj hx htg hr hnpc ht =>
    refine .inr ⟨taken, a, tg, x, target, s1, s2, hj, hx, htg, ?_⟩
    rw [(JumpsWhen.shape hj).2, ht]
    exact hnpc
  | rebase a v nrb npc r hr hv hnrb hnpc ht => exact .inl ⟨by simp [JumpsWhen], ht ▸ hnpc⟩
  | halt npc hnpc ht => exact .inl ⟨by simp [JumpsWhen], ht ▸ hnpc⟩

/-- Settles O37: the cases of `Execute`, read at each instruction. -/
theorem pcAdvancesByTheWidth : Obligations.PcAdvancesByTheWidth := by
  unfold Obligations.PcAdvancesByTheWidth
  intro c i s t hc _ h hf
  obtain ⟨hno, hpc⟩ | ⟨taken, a, tg, x, target, s1, s2, hj, hx, htg, hpc⟩ := (execWith_cases hc h).pc_cases hf
  · cases i with
    | jumpIfTrue a tg => exact absurd (.inl ⟨rfl, rfl⟩) (hno _ a tg)
    | jumpIfFalse a tg => exact absurd (.inr ⟨rfl, rfl⟩) (hno _ a tg)
    | _ => exact hpc
  · obtain ⟨rfl, rfl⟩ | ⟨rfl, rfl⟩ := hj
    · exact ⟨x, target, s1, s2, hx, htg, by simpa only [decide_eq_true_eq] using hpc⟩
    · exact ⟨x, target, s1, s2, hx, htg, by simpa only [decide_eq_true_eq] using hpc⟩

end Sys2Proof.Machine
end

section
/-! PROOFS. Halt (`43_control.md` R122), and what has stopped for good (`40_engine.md` R92). -/

namespace Sys2Proof.Machine

variable {c : Config} {s : State} {w : Int}

/-! ## Halt under any parameters -/

/-- Halt whose advance does not overflow. -/
theorem haltWith_of_inRange (h : inRange c.wordBits (s.pc + 1) = true) :
    haltWith c s = .next ((s.setPc (s.pc + 1)).setStatus .halted) := by
  rw [haltWith, advance_of_inRange rfl h, Res.bind_ok, conclude_halt]

/-- Halt whose advance overflows under `OVERFLOW_POLICY = fault`, its one fault. -/
theorem haltWith_of_overflow (hp : c.overflow = .fault) (h : inRange c.wordBits (s.pc + 1) = false) :
    haltWith c s = .next (enterFault .arithmeticOverflow s.pc s) := by
  rw [haltWith, advance, ovf_fault hp h, check_error, Res.bind_raise, conclude_raise]

/-! ## An instance that has stopped for good -/

theorem ended_of_halted (h : s.status = .halted) : s.ended = true := by
  simp [State.ended, h]

theorem stepBy_of_halted {ex : Instr → State → Host.Outcome State Fault Refusal} (h : s.status = .halted) :
    stepBy c ex s = .next s := by
  simp only [stepBy, h]

theorem runUntilOutput_of_ended (h : s.ended = true) (fuel : Nat) : runUntilOutput c fuel s = some s := if_pos h

/-- Fuel for one call is enough: the first call returns the instance as it is. -/
theorem run_of_ended (h : s.ended = true) (fuel : Nat) : run c (fuel + 1) s = some s := by
  simp only [run, runCalls, runUntilOutput_of_ended h, if_pos h]

/-! ## The word of Halt -/

/-- F0 has no mode digits and no operand words, so the low two digits of the word settle it. -/
theorem decode_of_halt_digits (h0 : 0 ≤ w) (hw : w % 100 = 99) (rest : List Int) :
    decode (w :: rest) = .ok (.halt, rest) := by
  have hheader : decodeHeader w = .ok .f0 := decodeHeader_f0 (decodeOpcode_of_number h0 hw rfl)
  simp only [decode, hheader]

/-- Settles O25: Halt does nothing but the advance, a halted instance has ended, and the word of Halt is its low two digits. -/
theorem haltStopsForGood : Obligations.HaltStopsForGood := by
  unfold Obligations.HaltStopsForGood
  refine ⟨fun s h => ?completes, fun s hs h => ?faults, fun s h => ?terminal, fun w rest h0 hw => ?decodes, rfl⟩
  case completes => exact (exec_eq_execWith .halt s).trans (haltWith_of_inRange h)
  case faults =>
    have hfault : exec .halt s = .next (enterFault .arithmeticOverflow s.pc s) :=
      (exec_eq_execWith .halt s).trans (haltWith_of_overflow rfl h)
    rw [hfault, enterFault_of_not_faulted s _ _ hs]
  case terminal =>
    have hended := ended_of_halted h
    exact ⟨stepBy_of_halted h, fun fuel => ⟨runUntilOutput_of_ended hended fuel, run_of_ended hended fuel⟩⟩
  case decodes => exact decode_of_halt_digits h0 hw rest

end Sys2Proof.Machine
end

section
/-! PROOFS. The host transactions that run no instruction: `set_inputs` (`49_host_interface.md` R162) and the reads
(R165 to R168). -/

namespace Sys2Proof.Machine

variable {c : Config} {s t : State} {values log : List Int} {v : Int}

/-! ## No step leaves an ended instance (`40_engine.md` R92, `60_exceptions.md` R195) -/

theorem ended_iff : s.ended = true ↔ s.status = .halted ∨ s.status = .faulted := by
  simp [State.ended]

theorem stepBy_of_faulted {ex : Instr → State → Host.Outcome State Fault Refusal} (h : s.status = .faulted) :
    stepBy c ex s = .next s := by
  simp only [stepBy, h]

theorem stepWith_of_ended (h : s.ended = true) : stepWith c s = .next s := by
  obtain hhalted | hfaulted := ended_iff.1 h
  · exact stepBy_of_halted hhalted
  · exact stepBy_of_faulted hfaulted

theorem eq_of_reaches_of_ended (h : s.ended = true) (hr : Reaches c s t) : t = s := by
  induction hr with
  | refl => rfl
  | step _ hstep ih =>
    rw [ih, stepWith_of_ended h] at hstep
    exact (Host.Outcome.next.inj hstep).symm

/-! ## The three answers of `set_inputs` -/

theorem setInputs_of_faulted (h : s.status = .faulted) : setInputs c values s = s := if_pos h

theorem setInputs_of_fits (h : s.status ≠ .faulted)
    (hfit : withinCapacity (s.iq.length + values.length) c.iqCapacity = true) :
    setInputs c values s = s.setIq (s.iq ++ values) := by
  rw [setInputs, if_neg h, if_pos hfit]

theorem setInputs_of_exceeds (h : s.status ≠ .faulted)
    (hfull : withinCapacity (s.iq.length + values.length) c.iqCapacity = false) :
    setInputs c values s = enterFault .resourceExhausted s.pc s := by
  rw [setInputs, if_neg h, hfull, if_neg Bool.false_ne_true]

theorem withinCapacity_of_none {cap : Option Nat} (h : cap = none) (n : Nat) : withinCapacity n cap = true := by
  rw [h, withinCapacity]

/-- A halted instance stays halted when the values fit, and is faulted when they do not: no instruction runs in either. -/
theorem setInputs_ended (h : s.status = .halted) : (setInputs c values s).ended = true := by
  have hnf : s.status ≠ .faulted := by simp [h]
  cases hfit : withinCapacity (s.iq.length + values.length) c.iqCapacity with
  | true => rw [setInputs_of_fits hnf hfit]; exact ended_of_halted h
  | false => rw [setInputs_of_exceeds hnf hfit]; exact ended_iff.2 (.inr (enterFault_status s _ _))

/-- Settles O51: one clause per answer of `set_inputs`; a halted instance has ended after it, and no step leaves an ended
instance. -/
theorem setInputsQueuesInOrder : Obligations.SetInputsQueuesInOrder := by
  unfold Obligations.SetInputsQueuesInOrder
  intro c values s
  refine ⟨setInputs_of_faulted, setInputs_of_fits, fun h hfull => ?exceeds, fun h hnone => ?unbounded,
    fun h t ht => ?halted⟩
  case exceeds => rw [setInputs_of_exceeds h hfull, enterFault_of_not_faulted s _ _ h]
  case unbounded => exact setInputs_of_fits h (withinCapacity_of_none hnone _)
  case halted => rw [eq_of_reaches_of_ended (setInputs_ended h) ht]

/-! ## `get_last_output` on a log with an entry and on an empty one -/

theorem getLastOutput_of_append (h : s.ol = log ++ [v]) : getLastOutput s = (s, .ok v) := by
  rw [getLastOutput, h, List.getLast?_concat]

theorem getLastOutput_of_nil (h : s.ol = []) :
    getLastOutput s = (enterFault .emptyOutputLog s.pc s, .error .emptyOutputLog) := by
  rw [getLastOutput, h, List.getLast?_nil]

/-- Settles O52: on an empty log the error is taken as a fault, which is recorded only if it is the first. -/
theorem getLastOutputReadsTheNewestEntry : Obligations.GetLastOutputReadsTheNewestEntry := by
  unfold Obligations.GetLastOutputReadsTheNewestEntry
  intro s
  refine ⟨fun log v => getLastOutput_of_append, fun h hs => ?first, fun h hs => ?later⟩
  case first => rw [getLastOutput_of_nil h, enterFault_of_not_faulted s _ _ hs]
  case later => rw [getLastOutput_of_nil h, enterFault_of_faulted s _ _ hs]

/-! ## The snapshot, cell by cell -/

@[simp] theorem memorySnapshot_length (s : State) : (memorySnapshot s).length = s.mem.len := by
  rw [memorySnapshot, List.length_map, List.length_range]

@[simp] theorem memorySnapshot_getElem (s : State) (a : Nat) (h : a < (memorySnapshot s).length) :
    (memorySnapshot s)[a] = s.mem.word a := by
  simp only [memorySnapshot, List.getElem_map, List.getElem_range]

/-- Settles O53: each read answers from the state and hands it back; the snapshot holds the words below `MEM_LEN`. -/
theorem hostReadsChangeNothing : Obligations.HostReadsChangeNothing := by
  unfold Obligations.HostReadsChangeNothing
  intro c fuel s
  exact ⟨rfl, ⟨memorySnapshot s, rfl, memorySnapshot_length s, memorySnapshot_getElem s⟩, rfl⟩

end Sys2Proof.Machine
end

section
/-! PROOFS. No transaction changes a faulted instance (`60_exceptions.md` R195). -/

namespace Sys2Proof.Machine

variable {c : Config} {s t : State} {r : Response} {fuel : Nat}

/-- Under no fuel `run` answers nothing; under any other its first call finds the instance ended. -/
theorem eq_of_run_of_ended (h : s.ended = true) (hrun : run c fuel s = some t) : t = s := by
  cases fuel with
  | zero => cases hrun
  | succ fuel =>
    rw [run_of_ended h] at hrun
    exact (Option.some.inj hrun).symm

/-- On an empty log the error is a second fault, and `EnterFault` ignores it. -/
theorem getLastOutput_fst_of_faulted (h : s.status = .faulted) : (getLastOutput s).1 = s := by
  obtain hnil | ⟨log, v, happend⟩ := s.ol.eq_nil_or_concat'
  · rw [getLastOutput_of_nil hnil, enterFault_of_faulted s _ _ h]
  · rw [getLastOutput_of_append happend]

theorem eq_of_transact_of_faulted {tr : Transaction} (h : s.status = .faulted)
    (htr : transact c fuel tr s = some (t, r)) : t = s := by
  have hended : s.ended = true := ended_iff.2 (.inr h)
  cases tr with
  | setInputs values =>
    obtain ⟨rfl, -⟩ := Prod.mk.inj (Option.some.inj htr)
    exact setInputs_of_faulted h
  | runUntilOutput =>
    rw [transact, runUntilOutput_of_ended hended] at htr
    exact (Prod.mk.inj (Option.some.inj htr)).1.symm
  | run =>
    obtain ⟨u, hrun, hu⟩ := Option.map_eq_some_iff.1 htr
    exact (Prod.mk.inj hu).1.symm.trans (eq_of_run_of_ended hended hrun)
  | getLastOutput =>
    obtain ⟨rfl, -⟩ := Prod.mk.inj (Option.some.inj htr)
    exact getLastOutput_fst_of_faulted h
  | outputs | memorySnapshot | status => exact (Prod.mk.inj (Option.some.inj htr)).1.symm

/-- Settles O44: a step of an ended instance answers the instance itself, a run call finds it ended before any step, and each
transaction hands a faulted instance back. -/
theorem stoppedInstancesStayStopped : Obligations.StoppedInstancesStayStopped := by
  unfold Obligations.StoppedInstancesStayStopped
  refine ⟨fun c s t hended => ?steps, fun c fuel s hended => ?runs, fun c fuel tr s t r hfaulted => ?transactions⟩
  case steps => exact eq_of_reaches_of_ended hended
  case runs => exact ⟨runUntilOutput_of_ended hended fuel, run_of_ended hended fuel⟩
  case transactions => exact eq_of_transact_of_faulted hfaulted

end Sys2Proof.Machine
end

section
/-! PROOFS. The decoder on whole instructions (`30_encoding.md` R60 to R70). -/

namespace Sys2Proof

variable {w r0 r1 r2 : Int} {rest : List Int} {slot : Nat}

/-! ## Decoding what the encoder writes -/

/-- The canonical word of a header decodes to that header (R70). -/
theorem decodeHeader_encodeHeader (h : Header) : decodeHeader (encodeHeader h) = .ok h := by
  cases h with
  | f0 => rfl
  | f1 o m0 => exact Laws.HeaderReads.ofF1 o m0
  | f2 o m0 m1 => exact Laws.HeaderReads.ofF2 o m0 m1
  | f3 o m0 m1 m2 => exact Laws.HeaderReads.ofF3 o m0 m1 m2

/-! A header with its operand words is an instruction, and the words after it are left over (R61, R66). -/

theorem decode_f0 (h : decodeHeader w = .ok .f0) : decode (w :: rest) = .ok (.halt, rest) := by
  simp only [decode, h]

theorem decode_f1 {o : Op1} {m0 : Mode} (h : decodeHeader w = .ok (.f1 o m0)) :
    decode (w :: r0 :: rest) = .ok (o.instr ⟨m0, r0⟩, rest) := by
  simp only [decode, h]

theorem decode_f2 {o : Op2} {m0 m1 : Mode} (h : decodeHeader w = .ok (.f2 o m0 m1)) :
    decode (w :: r0 :: r1 :: rest) = .ok (o.instr ⟨m0, r0⟩ ⟨m1, r1⟩, rest) := by
  simp only [decode, h]

theorem decode_f3 {o : Op3} {m0 m1 m2 : Mode} (h : decodeHeader w = .ok (.f3 o m0 m1 m2)) :
    decode (w :: r0 :: r1 :: r2 :: rest) = .ok (o.instr ⟨m0, r0⟩ ⟨m1, r1⟩ ⟨m2, r2⟩, rest) := by
  simp only [decode, h]

theorem decode_error {e : DecodeError} (h : decodeHeader w = .error e) : decode (w :: rest) = .error e := by
  simp only [decode, h]

/-- Settles O8: the header is read back from the canonical word, and with it the operands, format by format. -/
theorem decodeOfEncodeIsTheInstruction : Obligations.DecodeOfEncodeIsTheInstruction := by
  unfold Obligations.DecodeOfEncodeIsTheInstruction
  intro i rest
  have hread : decodeHeader (encodeHeader i.header) = .ok i.header := decodeHeader_encodeHeader i.header
  cases i with
  | add | mul | lessThan | equals => exact decode_f3 hread
  | jumpIfTrue | jumpIfFalse => exact decode_f2 hread
  | input | output | adjustRelativeBase => exact decode_f1 hread
  | halt => exact decode_f0 hread

/-- Settles O7: a canonical word is the rule's sum by definition, and it reads back as its header. -/
theorem everyAcceptedWordHasACanonicalWord : Obligations.EveryAcceptedWordHasACanonicalWord := by
  unfold Obligations.EveryAcceptedWordHasACanonicalWord
  exact ⟨fun _ _ _ _ => rfl, fun _ _ _ => rfl, fun _ _ => rfl, rfl,
    fun _ h hw => (decodeHeader_encodeHeader h).trans hw.symm⟩

/-- Settles O9: each listing's first word decodes to its header, by computation. -/
theorem specListingsDecode : Obligations.SpecListingsDecode := by
  unfold Obligations.SpecListingsDecode
  exact ⟨decode_f3 (o := .add) rfl, decode_f1 (o := .output) rfl, decode_f2 (o := .jumpIfFalse) rfl,
    decode_f3 (o := .mul) rfl, decode_f3 (o := .lessThan) rfl⟩

/-! ## Mode digits that are none (R68 c) -/

theorem decodeMode_of_bad_digit (h : 3 ≤ digit w (slot + 2)) : decodeMode w slot = .error .unknownAddressingMode := by
  simp (disch := omega) only [decodeMode, modeOfDigit, if_neg]

/-- A bad digit is met after slots that decode or are bad themselves; the answer is the same. -/
theorem decodeMode_bind_error {f : Mode → Except DecodeError Header} (h : ∀ m, f m = .error .unknownAddressingMode) :
    (decodeMode w slot >>= f) = .error .unknownAddressingMode := by
  obtain ⟨m, hm⟩ | he := decodeMode_cases w slot
  · rw [hm, ok_bind, h]
  · rw [he, error_bind]

/-- Settles O6: the bad digit's slot rejects the word, and each slot before it passes on or rejects it likewise. -/
theorem badModeDigitRejected : Obligations.BadModeDigitRejected := by
  unfold Obligations.BadModeDigitRejected
  intro w o slot ho hslot hdigit
  have hbad := decodeMode_of_bad_digit hdigit
  cases o with
  | f0 => exact absurd hslot (Nat.not_lt_zero slot)
  | f1 o =>
    obtain rfl : slot = 0 := Nat.lt_one_iff.1 hslot
    rw [decodeHeader_f1 ho, hbad, error_bind]
  | f2 o =>
    rw [decodeHeader_f2 ho]
    match slot, hslot with
    | 0, _ => rw [hbad, error_bind]
    | 1, _ => exact decodeMode_bind_error fun _ => by rw [hbad, error_bind]
  | f3 o =>
    rw [decodeHeader_f3 ho]
    match slot, hslot with
    | 0, _ => rw [hbad, error_bind]
    | 1, _ => exact decodeMode_bind_error fun _ => by rw [hbad, error_bind]
    | 2, _ => exact decodeMode_bind_error fun _ => decodeMode_bind_error fun _ => by rw [hbad, error_bind]

end Sys2Proof
end

section
/-! PROOFS. Legal states are kept by the updates, the fetch, `Execute` and a step (`00_scope.md` R8, `10_state.md` R26). -/

namespace Sys2Proof

/-- Every operand is well formed. -/
theorem Instr.wf_iff {c : Config} {i : Instr} : i.wf c = true ↔ ∀ o ∈ i.operands, o.wf c = true := List.all_eq_true

@[simp] theorem Op1.operands_instr (o : Op1) (a : Operand) : (o.instr a).operands = [a] := by cases o <;> rfl
@[simp] theorem Op2.operands_instr (o : Op2) (a b : Operand) : (o.instr a b).operands = [a, b] := by cases o <;> rfl
@[simp] theorem Op3.operands_instr (o : Op3) (a b d : Operand) : (o.instr a b d).operands = [a, b, d] := by cases o <;> rfl

end Sys2Proof

namespace Sys2Proof.Machine

variable {c : Config} {s r t : State} {i : Instr} {v : Int} {n m : Nat} {cap : Option Nat}

/-! ## Capacities -/

theorem withinCapacity_mono (hmn : m ≤ n) (h : withinCapacity n cap = true) : withinCapacity m cap = true := by
  cases cap with
  | none => rfl
  | some k => exact decide_eq_true (hmn.trans (of_decide_eq_true h))

/-- Room for one more. -/
theorem withinCapacity_succ (h : belowCapacity n cap = true) : withinCapacity (n + 1) cap = true := by
  cases cap with
  | none => rfl
  | some k => exact decide_eq_true (Nat.succ_le_of_lt (of_decide_eq_true h))

/-! ## The updates -/

theorem State.Legal.setPc (hs : s.Legal c) (hv : inRange c.wordBits v = true) : (s.setPc v).Legal c :=
  { hs with pc := hv }

theorem State.Legal.setRb (hs : s.Legal c) (hv : inRange c.wordBits v = true) : (s.setRb v).Legal c :=
  { hs with rb := hv }

/-- Without a fault there is no record, before and after (`10_state.md` R26). -/
theorem State.Legal.setStatus {st : Status} (hs : s.Legal c) (hnf : s.status ≠ .faulted) (hst : st ≠ .faulted) :
    (s.setStatus st).Legal c :=
  { hs with record := iff_of_false hst fun hk => hnf (hs.record.2 hk) }

theorem State.Legal.setIq {q : List Int} (hs : s.Legal c) (hq : wordsInRange c q)
    (hlen : withinCapacity q.length c.iqCapacity = true) : (s.setIq q).Legal c :=
  { hs with iq := hq, iqLen := hlen }

theorem State.Legal.appendOl (hs : s.Legal c) (hv : inRange c.wordBits v = true)
    (hroom : belowCapacity s.ol.length c.olCapacity = true) : (s.appendOl v).Legal c :=
  { hs with
    ol := fun w hw => by
      obtain h | h := List.mem_append.1 hw
      · exact hs.ol w h
      · rw [List.mem_singleton.1 h]; exact hv
    olLen := by
      rw [State.appendOl_ol, List.length_append, List.length_singleton]
      exact withinCapacity_succ hroom }

theorem State.Legal.store (hc : c.Admitted) (hs : s.Legal c) (hn : belowCapacity n c.maxMemWords = true)
    (hv : inRange c.wordBits v = true) : (s.store c n v).Legal c :=
  { hs with
    memWf := store_wf hc v hn hs.memWf
    cells := fun cell hcell => by
      obtain rfl | h := store_cells hcell
      · exact hv
      · exact hs.cells cell h
    memLen := withinCapacity_reach hs.memLen }

theorem State.Legal.enterFault {k : FaultKind} {pc : Int} (hs : s.Legal c) (hpc : inRange c.wordBits pc = true) :
    (enterFault k pc s).Legal c := by
  by_cases hf : s.status = .faulted
  · rwa [enterFault_of_faulted s k pc hf]
  · rw [enterFault_of_not_faulted s k pc hf]
    exact { hs with
      faultPc := hpc
      record := iff_of_true rfl (Option.some_ne_none k)
      noRecord := fun h => absurd h (Option.some_ne_none k) }

/-! ## The fetch -/

/-- A phase that succeeds after another: both succeeded (`00_scope.md` R10). -/
theorem Res.bind_eq_ok {α β : Type} {p : Res α} {f : α → State → Res β} {b : β} :
    p.bind f = .ok b t ↔ ∃ a u, p = .ok a u ∧ f a u = .ok b t := by
  cases p with
  | ok a u => exact ⟨fun h => ⟨a, u, rfl, h⟩, fun ⟨_, _, hp, h⟩ => by cases hp; exact h⟩
  | raise k u => simp

theorem fetchOperand_legal (hc : c.Admitted) (hs : s.Legal c) {slot : Nat} {md : Mode} {o : Operand}
    (h : fetchOperand c slot md s = .ok o t) : o.wf c = true ∧ t.Legal c := by
  obtain ⟨hgrown, -, n, hraw⟩ := fetchOperand_ok hc h
  refine ⟨?_, hgrown.legal hc hs⟩
  rw [Operand.wf, hraw]
  exact hs.word n

theorem fetchOperands_legal (hc : c.Admitted) (hs : s.Legal c) {hd : Header} (h : fetchOperands c hd s = .ok i t) :
    i.wf c = true ∧ t.Legal c := by
  rw [Instr.wf_iff]
  cases hd with
  | f0 => cases h; exact ⟨fun _ ho => absurd ho List.not_mem_nil, hs⟩
  | f1 o m0 =>
    obtain ⟨a, s1, ha, h⟩ := Res.bind_eq_ok.1 h
    cases h
    obtain ⟨wa, hs1⟩ := fetchOperand_legal hc hs ha
    exact ⟨by simpa using wa, hs1⟩
  | f2 o m0 m1 =>
    obtain ⟨a, s1, ha, h⟩ := Res.bind_eq_ok.1 h
    obtain ⟨b, s2, hb, h⟩ := Res.bind_eq_ok.1 h
    cases h
    obtain ⟨wa, hs1⟩ := fetchOperand_legal hc hs ha
    obtain ⟨wb, hs2⟩ := fetchOperand_legal hc hs1 hb
    exact ⟨by simpa using ⟨wa, wb⟩, hs2⟩
  | f3 o m0 m1 m2 =>
    obtain ⟨a, s1, ha, h⟩ := Res.bind_eq_ok.1 h
    obtain ⟨b, s2, hb, h⟩ := Res.bind_eq_ok.1 h
    obtain ⟨d, s3, hd, h⟩ := Res.bind_eq_ok.1 h
    cases h
    obtain ⟨wa, hs1⟩ := fetchOperand_legal hc hs ha
    obtain ⟨wb, hs2⟩ := fetchOperand_legal hc hs1 hb
    obtain ⟨wd, hs3⟩ := fetchOperand_legal hc hs2 hd
    exact ⟨by simpa using ⟨wa, wb, wd⟩, hs3⟩

theorem fetchInstr_legal (hc : c.Admitted) (hs : s.Legal c) (h : fetchInstr c s = .ok i t) :
    i.wf c = true ∧ t.Legal c := by
  obtain ⟨w, s1, hw, h⟩ := Res.bind_eq_ok.1 h
  obtain ⟨hd, s2, hh, hops⟩ := Res.bind_eq_ok.1 h
  obtain ⟨-, rfl⟩ := check_eq_ok.1 hh
  exact fetchOperands_legal hc ((memRead_grown hc hw).legal hc hs) hops

/-- Settles O40: each raw value is a word the legal state holds, and the reads only grow memory. -/
theorem fetchedInstructionIsWellFormed : Obligations.FetchedInstructionIsWellFormed := by
  unfold Obligations.FetchedInstructionIsWellFormed
  intro c s r i hc hs h
  exact fetchInstr_legal hc hs h

/-! ## `Execute` and a step -/

/-- A well-formed operand is read as a word. -/
theorem readValue_inRange (hc : c.Admitted) (hs : s.Legal c) {o : Operand} (ho : o.wf c = true)
    (h : readValue c o s = .ok v t) : inRange c.wordBits v = true := by
  obtain ⟨-, rfl | ⟨n, rfl⟩⟩ := readValue_ok hc h
  · exact ho
  · exact hs.word n

theorem ExecCase.legal (hc : c.Admitted) (hs : s.Legal c) (hnf : s.status ≠ .faulted) (hi : i.wf c = true)
    (h : ExecCase c s t i) : t.Legal c := by
  rw [Instr.wf_iff] at hi
  cases h with
  | fault k r hr ht => exact ht ▸ (hr.legal hc hs).enterFault hs.pc
  | store d n v npc r _ hr _ hd hn hv hnpc ht =>
    exact ht ▸ ((hr.legal hc hs).store hc hn hv).setPc (ovf_inRange hc hnpc)
  | input d n v npc rest hd hn hq hnpc ht =>
    have hv : inRange c.wordBits v = true := hs.iq v (hq ▸ List.mem_cons_self)
    have hrest : wordsInRange c rest := fun w hw => hs.iq w (hq ▸ List.mem_cons_of_mem v hw)
    have hlen : withinCapacity rest.length c.iqCapacity = true := withinCapacity_mono (by simp [hq]) hs.iqLen
    exact ht ▸ ((hs.setIq hrest hlen).store hc hn hv).setPc (ovf_inRange hc hnpc)
  | output a v npc r hr hv hroom hnpc ht =>
    have hword := readValue_inRange hc hs (hi a List.mem_cons_self) hv
    have hlog := (hr.legal hc hs).appendOl hword (hr.ol ▸ hroom)
    exact ht ▸ (hlog.setPc (ovf_inRange hc hnpc)).setStatus (hr.status ▸ hnf) (by decide)
  | jump a tg taken x target npc r1 r hj hx htg hr hnpc ht =>
    have hwf : tg.wf c = true := by
      obtain ⟨rfl, -⟩ | ⟨rfl, -⟩ := hj <;> exact hi tg (by simp [Instr.operands])
    have htarget := readValue_inRange hc ((readValue_ok hc hx).1.legal hc hs) hwf htg
    refine ht ▸ (hr.legal hc hs).setPc ?_
    split at hnpc
    · exact hnpc ▸ htarget
    · exact ovf_inRange hc hnpc
  | rebase a v nrb npc r hr hv hnrb hnpc ht =>
    exact ht ▸ ((hr.legal hc hs).setRb (ovf_inRange hc hnrb)).setPc (ovf_inRange hc hnpc)
  | halt npc hnpc ht => exact ht ▸ (hs.setPc (ovf_inRange hc hnpc)).setStatus hnf (by decide)

theorem not_faulted_of_not_ended (h : s.ended = false) : s.status ≠ .faulted :=
  fun hf => Bool.false_ne_true (h.symm.trans (ended_iff.2 (.inr hf)))

theorem stepWith_legal (hc : c.Admitted) (hs : s.Legal c) (h : stepWith c s = .next t) : t.Legal c := by
  obtain ⟨-, rfl⟩ | ⟨hlive, r, hr, hcase⟩ := stepWith_cases hc h
  · exact hs
  have hrun : (s.setStatus .running).Legal c := hs.setStatus (not_faulted_of_not_ended hlive) (by decide)
  have hnf : r.status ≠ .faulted := by simp [hr.status]
  obtain ⟨k, -, rfl⟩ | ⟨i, hf, he⟩ := hcase
  · exact (hr.legal hc hrun).enterFault hs.pc
  · obtain ⟨hi, hlegal⟩ := fetchInstr_legal hc hrun hf
    exact (execWith_cases hc he).legal hc hlegal hnf hi

/-- Settles O42: a step is a fault over a grown state, or a well-formed instruction's one commit, and each update keeps the
invariant. -/
theorem legalStateKeptByEveryStep : Obligations.LegalStateKeptByEveryStep := by
  unfold Obligations.LegalStateKeptByEveryStep
  refine ⟨fun c s t hc hs h => stepWith_legal hc hs h, fun s t hs h => ?_⟩
  exact stepWith_legal hardware_admitted hs ((step_eq_stepWith s).symm.trans h)

end Sys2Proof.Machine
end

section
/-! PROOFS. Two instances that differ in the growth policy alone, side by side (`20_memory.md` R43): every phase of a step gives
both the same value or the same fault, in states that differ in `MEM_LEN` alone. -/

namespace Sys2Proof.Machine

variable {c c' : Config} {s s' : State} {α β : Type}

/-! ## The relation between the two instances -/

/-- Two canonical states that agree but for `MEM_LEN`. -/
structure Twins (s s' : State) : Prop where
  agree : AgreeButLen s s'
  wf : s.mem.wf = true
  wf' : s'.mem.wf = true

/-- Two phases end alike: with one value or one fault, in twin states. -/
def TwinPhases : Res α → Res α → Prop
  | .ok a u, .ok a' u' => a = a' ∧ Twins u u'
  | .raise k u, .raise k' u' => k = k' ∧ Twins u u'
  | _, _ => False

theorem TwinPhases.cases {p p' : Res α} (hp : TwinPhases p p') :
    (∃ a u u', p = .ok a u ∧ p' = .ok a u' ∧ Twins u u') ∨
    (∃ k u u', p = .raise k u ∧ p' = .raise k u' ∧ Twins u u') := by
  match p, p', hp with
  | .ok a u, .ok _ u', ⟨rfl, hu⟩ => exact .inl ⟨a, u, u', rfl, rfl, hu⟩
  | .raise k u, .raise _ u', ⟨rfl, hu⟩ => exact .inr ⟨k, u, u', rfl, rfl, hu⟩

/-- Phases in sequence: the second ones need to agree on what the first one answers. -/
theorem TwinPhases.bind {p p' : Res α} {f f' : α → State → Res β} (hp : TwinPhases p p')
    (hf : ∀ a u u', p = .ok a u → Twins u u' → TwinPhases (f a u) (f' a u')) :
    TwinPhases (p.bind f) (p'.bind f') := by
  obtain ⟨a, u, u', rfl, rfl, hu⟩ | ⟨k, u, u', rfl, rfl, hu⟩ := hp.cases
  · exact hf a u u' rfl hu
  · exact hp

/-! ## Updates -/

theorem Twins.setMem (h : Twins s s') {m m' : Memory} (hword : ∀ a, m'.word a = m.word a) (hm : m.wf = true)
    (hm' : m'.wf = true) : Twins (s.setMem m) (s'.setMem m') :=
  ⟨{ h.agree with words := hword }, hm, hm'⟩

theorem Twins.setPc (h : Twins s s') (v : Int) : Twins (s.setPc v) (s'.setPc v) :=
  { h with agree := { h.agree with pc := rfl } }

theorem Twins.setRb (h : Twins s s') (v : Int) : Twins (s.setRb v) (s'.setRb v) :=
  { h with agree := { h.agree with rb := rfl } }

theorem Twins.setStatus (h : Twins s s') (st : Status) : Twins (s.setStatus st) (s'.setStatus st) :=
  { h with agree := { h.agree with status := rfl } }

theorem Twins.setIq (h : Twins s s') (q : List Int) : Twins (s.setIq q) (s'.setIq q) :=
  { h with agree := { h.agree with iq := rfl } }

theorem Twins.appendOl (h : Twins s s') (v : Int) : Twins (s.appendOl v) (s'.appendOl v) :=
  { h with agree := { h.agree with ol := congrArg (· ++ [v]) h.agree.ol } }

theorem Twins.enterFault (h : Twins s s') (k : FaultKind) (pc : Int) :
    Twins (enterFault k pc s) (enterFault k pc s') := by
  by_cases hf : s.status = .faulted
  · rwa [enterFault_of_faulted s k pc hf, enterFault_of_faulted s' k pc (h.agree.status.trans hf)]
  · have hf' : s'.status ≠ .faulted := h.agree.status ▸ hf
    rw [enterFault_of_not_faulted s k pc hf, enterFault_of_not_faulted s' k pc hf']
    exact { h with agree := { h.agree with status := rfl, faultKind := rfl, faultPc := rfl } }

/-! ## The checks do not read `GROW` -/

theorem ovf_congr (hd : DifferInGrowth c c') (x : Int) : ovf c' x = ovf c x := by
  simp only [ovf, hd.wordBits, hd.overflow]

theorem checkAddr_congr (hd : DifferInGrowth c c') (a : Int) : checkAddr c' a = checkAddr c a := by
  simp only [checkAddr, hd.maxMemWords]

theorem resolveAddr_congr (hd : DifferInGrowth c c') (rb : Int) (o : Operand) :
    resolveAddr c' rb o = resolveAddr c rb o := by
  simp only [resolveAddr, ovf_congr hd, checkAddr_congr hd]

theorem Twins.check {e e' : Except FaultKind α} (h : Twins s s') (he : e' = e) : TwinPhases (check e s) (check e' s') := by
  subst he
  cases e' with
  | ok a => exact ⟨rfl, h⟩
  | error k => exact ⟨rfl, h⟩

/-! ## The phases -/

section Phases

variable (hc : c.Admitted) (hc' : c'.Admitted) (hd : DifferInGrowth c c') (h : Twins s s')
include hc hc' hd h

/-- A read grows the two memories by different amounts and answers one word. -/
theorem Twins.memRead (a : Int) : TwinPhases (memRead c a s) (memRead c' a s') := by
  cases hn : checkAddr c a with
  | error k =>
    rw [memRead_raise.2 ⟨hn, rfl⟩, memRead_raise.2 ⟨(checkAddr_congr hd a).trans hn, rfl⟩]
    exact ⟨rfl, h⟩
  | ok n =>
    have hn' : checkAddr c' a = .ok n := (checkAddr_congr hd a).trans hn
    have hb := (checkAddr_ok.1 hn).2.2
    have hb' := (checkAddr_ok.1 hn').2.2
    rw [memRead_of_ok hc hn, memRead_of_ok hc' hn']
    refine ⟨(h.agree.words n).symm, h.setMem (fun b => ?_) (reach_wf hc hb h.wf) (reach_wf hc' hb' h.wf')⟩
    rw [reach_word hc hb, reach_word hc' hb', h.agree.words]

/-- A store at one address of one word. -/
theorem Twins.store {n : Nat} (v : Int) (hb : belowCapacity n c.maxMemWords = true) :
    Twins (s.store c n v) (s'.store c' n v) := by
  have hb' : belowCapacity n c'.maxMemWords = true := hd.maxMemWords ▸ hb
  refine h.setMem (fun a => ?_) (store_wf hc v hb h.wf) (store_wf hc' v hb' h.wf')
  by_cases ha : a = n
  · rw [ha, store_word_self hc v hb h.wf, store_word_self hc' v hb' h.wf']
  · rw [store_word_ne hc v hb ha, store_word_ne hc' v hb' ha, h.agree.words]

theorem Twins.readValue (o : Operand) : TwinPhases (readValue c o s) (readValue c' o s') := by
  obtain ⟨mode, raw⟩ := o
  cases mode with
  | immediate => exact ⟨rfl, h⟩
  | position => exact h.memRead hc hc' hd raw
  | relative =>
    have haddr : ovf c' (raw + s'.rb) = ovf c (raw + s.rb) := by rw [ovf_congr hd, h.agree.rb]
    exact (h.check haddr).bind fun a u u' _ hu => hu.memRead hc hc' hd a

omit hc hc' in
theorem Twins.writeAddr (o : Operand) : TwinPhases (writeAddr c o s) (writeAddr c' o s') :=
  h.check (by rw [resolveAddr_congr hd, h.agree.rb])

omit hc hc' in
theorem Twins.advance (w : Int) : TwinPhases (advance c w s) (advance c' w s') :=
  h.check (by rw [ovf_congr hd, h.agree.pc])

end Phases

/-! ## `Execute` -/

/-- Two outcomes that are next states are twins. -/
def TwinOutcomes (o o' : Host.Outcome State Fault Refusal) : Prop := ∀ t t', o = .next t → o' = .next t' → Twins t t'

theorem TwinOutcomes.next (h : Twins s s') : TwinOutcomes (.next s) (.next s') := by
  rintro t t' ⟨⟩ ⟨⟩
  exact h

theorem TwinOutcomes.conclude {p p' : Res StepResult} {pc pc' : Int} (hpc : pc' = pc) (hp : TwinPhases p p') :
    TwinOutcomes (conclude pc p) (conclude pc' p') := by
  subst hpc
  obtain ⟨a, u, u', rfl, rfl, hu⟩ | ⟨k, u, u', rfl, rfl, hu⟩ := hp.cases
  · match a with
    | .continue => exact .next hu
    | .output => exact .next (hu.setStatus .suspendedOnOutput)
    | .halt => exact .next (hu.setStatus .halted)
  · exact .next (hu.enterFault k pc')

section Execute

variable (hc : c.Admitted) (hc' : c'.Admitted) (hd : DifferInGrowth c c') (h : Twins s s')
include hc hc' hd h

theorem Twins.binaryOp {op op' : Int → Int → Except FaultKind Int} (hop : ∀ x y, op' x y = op x y) (a b d : Operand) :
    TwinOutcomes (binaryOp c op a b d s) (binaryOp c' op' a b d s') :=
  .conclude h.agree.pc <|
    (h.readValue hc hc' hd a).bind fun x _ _ _ h =>
    (h.readValue hc hc' hd b).bind fun y _ _ _ h =>
    (h.writeAddr hd d).bind fun _ _ _ hdst h =>
    (h.check (hop x y)).bind fun r _ _ _ h =>
    (h.advance hd 4).bind fun _ _ _ _ h =>
    ⟨rfl, (h.store hc hc' hd r (writeAddr_ok hdst).2).setPc _⟩

theorem Twins.jumpWhen (taken : Int → Bool) (a tg : Operand) :
    TwinOutcomes (jumpWhen c taken a tg s) (jumpWhen c' taken a tg s') :=
  .conclude h.agree.pc <|
    (h.readValue hc hc' hd a).bind fun x _ _ _ h =>
    (h.readValue hc hc' hd tg).bind fun _ _ _ _ h => by
      refine .bind ?_ fun npc _ _ _ h => ⟨rfl, h.setPc npc⟩
      split
      · exact ⟨rfl, h⟩
      · exact h.advance hd 3

theorem Twins.inputWith (d : Operand) : TwinOutcomes (inputWith c d s) (inputWith c' d s') :=
  .conclude h.agree.pc <|
    (h.writeAddr hd d).bind fun _ _ _ hdst h =>
    (h.check (congrArg popInput h.agree.iq)).bind fun popped _ _ _ h =>
    (h.advance hd 2).bind fun _ _ _ _ h =>
    ⟨rfl, ((h.setIq popped.2).store hc hc' hd popped.1 (writeAddr_ok hdst).2).setPc _⟩

theorem Twins.outputWith (a : Operand) : TwinOutcomes (outputWith c a s) (outputWith c' a s') :=
  .conclude h.agree.pc <|
    (h.readValue hc hc' hd a).bind fun v _ _ _ h =>
    (h.check (by simp only [checkLogRoom, h.agree.ol, hd.olCapacity])).bind fun _ _ _ _ h =>
    (h.advance hd 2).bind fun npc _ _ _ h => ⟨rfl, (h.appendOl v).setPc npc⟩

theorem Twins.adjustRelativeBaseWith (a : Operand) :
    TwinOutcomes (adjustRelativeBaseWith c a s) (adjustRelativeBaseWith c' a s') :=
  .conclude h.agree.pc <|
    (h.readValue hc hc' hd a).bind fun v _ _ _ h =>
    (h.check (by rw [ovf_congr hd, h.agree.rb])).bind fun nrb _ _ _ h =>
    (h.advance hd 2).bind fun npc _ _ _ h => ⟨rfl, (h.setRb nrb).setPc npc⟩

theorem Twins.execWith (i : Instr) : TwinOutcomes (execWith c i s) (execWith c' i s') := by
  cases i with
  | add a b d => exact h.binaryOp hc hc' hd (fun _ _ => ovf_congr hd _) a b d
  | mul a b d => exact h.binaryOp hc hc' hd (fun _ _ => ovf_congr hd _) a b d
  | lessThan a b d => exact h.binaryOp hc hc' hd (fun _ _ => rfl) a b d
  | equals a b d => exact h.binaryOp hc hc' hd (fun _ _ => rfl) a b d
  | input d => exact h.inputWith hc hc' hd d
  | output a => exact h.outputWith hc hc' hd a
  | jumpIfTrue a tg => exact h.jumpWhen hc hc' hd _ a tg
  | jumpIfFalse a tg => exact h.jumpWhen hc hc' hd _ a tg
  | adjustRelativeBase a => exact h.adjustRelativeBaseWith hc hc' hd a
  | halt => exact .conclude h.agree.pc <| (h.advance hd 1).bind fun npc _ _ _ h => ⟨rfl, h.setPc npc⟩

/-! ## Fetch and step -/

theorem Twins.fetchOperand (slot : Nat) (m : Mode) : TwinPhases (fetchOperand c slot m s) (fetchOperand c' slot m s') :=
  (h.check (by rw [ovf_congr hd, h.agree.pc])).bind fun addr _ _ _ h =>
  (h.memRead hc hc' hd addr).bind fun _ _ _ _ h => ⟨rfl, h⟩

theorem Twins.fetchOperands (hdr : Header) : TwinPhases (fetchOperands c hdr s) (fetchOperands c' hdr s') := by
  cases hdr with
  | f0 => exact ⟨rfl, h⟩
  | f1 o m0 => exact (h.fetchOperand hc hc' hd 0 m0).bind fun _ _ _ _ h => ⟨rfl, h⟩
  | f2 o m0 m1 =>
    exact (h.fetchOperand hc hc' hd 0 m0).bind fun _ _ _ _ h =>
      (h.fetchOperand hc hc' hd 1 m1).bind fun _ _ _ _ h => ⟨rfl, h⟩
  | f3 o m0 m1 m2 =>
    exact (h.fetchOperand hc hc' hd 0 m0).bind fun _ _ _ _ h =>
      (h.fetchOperand hc hc' hd 1 m1).bind fun _ _ _ _ h =>
      (h.fetchOperand hc hc' hd 2 m2).bind fun _ _ _ _ h => ⟨rfl, h⟩

theorem Twins.fetchInstr : TwinPhases (fetchInstr c s) (fetchInstr c' s') := by
  unfold Machine.fetchInstr
  rw [h.agree.pc]
  exact (h.memRead hc hc' hd s.pc).bind fun w _ _ _ h =>
    (h.check rfl).bind fun hdr _ _ _ h => h.fetchOperands hc hc' hd hdr

theorem Twins.fetchAndRun :
    TwinOutcomes (fetchAndRun c (Machine.execWith c) s) (fetchAndRun c' (Machine.execWith c') s') := by
  unfold Machine.fetchAndRun
  obtain ⟨i, u, u', hp, hp', hu⟩ | ⟨k, u, u', hp, hp', hu⟩ := (h.fetchInstr hc hc' hd).cases
  · rw [hp, hp']
    exact hu.execWith hc hc' hd i
  · rw [hp, hp', h.agree.pc]
    exact .next (hu.enterFault k s.pc)

theorem Twins.stepWith : TwinOutcomes (stepWith c s) (stepWith c' s') := by
  unfold Machine.stepWith stepBy
  rw [h.agree.status]
  cases s.status with
  | halted => exact .next h
  | faulted => exact .next h
  | running => exact h.fetchAndRun hc hc' hd
  | suspendedOnOutput => exact (h.setStatus .running).fetchAndRun hc hc' hd

end Execute

/-- Settles O48: `GROW` decides how far a read or a store extends memory, which no word shows, and nothing else reads it. -/
theorem growthPolicyIsUnobservable : Obligations.GrowthPolicyIsUnobservable := by
  unfold Obligations.GrowthPolicyIsUnobservable
  intro c c' s s' t t' hc hc' hd hwf hwf' hagree ht ht'
  have htwins : Twins s s' := ⟨hagree, hwf, hwf'⟩
  exact (htwins.stepWith hc hc' hd t t' ht ht').agree

end Sys2Proof.Machine
end

section
/-! PROOFS. `ovf` (`00_scope.md` R12, `41_arithmetic.md` R102), and the Relative operands it forms (`45_relative_base.md` R151). -/

namespace Sys2Proof.Machine

variable {c : Config} {x y : Int}

/-- Under `OVERFLOW_POLICY = wrap` a result outside the range is reduced into it (R12). -/
theorem ovf_wrap (hp : c.overflow = .wrap) (h : inRange c.wordBits x = false) :
    ovf c x = .ok ((x - wordMin c.wordBits) % ((2 ^ c.wordBits : Nat) : Int) + wordMin c.wordBits) := by
  simp [ovf, h, hp]

/-- Settles O1: the range is tested first, then the policy. -/
theorem overflowCheckHasThreeCases : Obligations.OverflowCheckHasThreeCases := by
  unfold Obligations.OverflowCheckHasThreeCases
  exact fun c x => ⟨ovf_ok_of_inRange, fun h hp => ovf_fault hp h, fun h hp => ovf_wrap hp h⟩

/-- The reduction subtracts a multiple of `2^WORD_BITS`. -/
theorem dvd_sub_of_ovf (h : ovf c x = .ok y) : ((2 ^ c.wordBits : Nat) : Int) ∣ x - y := by
  cases hin : inRange c.wordBits x with
  | true =>
    rw [ovf_ok_of_inRange hin] at h
    cases h
    rw [Int.sub_self]
    exact dvd_zero _
  | false =>
    cases hp : c.overflow with
    | fault => simp [ovf_fault hp hin] at h
    | wrap =>
      rw [ovf_wrap hp hin] at h
      cases h
      have hdvd := Int.dvd_self_sub_emod (x := x - wordMin c.wordBits) (m := ((2 ^ c.wordBits : Nat) : Int))
      rwa [Int.sub_sub, Int.add_comm (wordMin c.wordBits)] at hdvd

/-- Settles O2: the answer is a word, whichever form it has, and differs from the exact result by what was reduced. -/
theorem overflowCheckAnswersACongruentWord : Obligations.OverflowCheckAnswersACongruentWord := by
  unfold Obligations.OverflowCheckAnswersACongruentWord
  exact fun c x y hc h => ⟨ovf_inRange hc h, dvd_sub_of_ovf h⟩

/-- Settles O15: where `ovf` answers the sum itself, both operands are resolved from the same address. -/
theorem relativeDenotesTheCellAtBasePlusRaw : Obligations.RelativeDenotesTheCellAtBasePlusRaw := by
  unfold Obligations.RelativeDenotesTheCellAtBasePlusRaw
  intro c raw s h
  have hsum : ovf c (raw + s.rb) = .ok (raw + s.rb) := ovf_ok_of_inRange h
  exact ⟨readValue_relative_of_ok hsum, writeAddr_relative_of_ok hsum⟩

end Sys2Proof.Machine
end

section
/-! PROOFS. The engine as a whole: its parameters on this hardware (`00_scope.md` R7), its totality (`60_exceptions.md` R197) and
the codes the host reads (`10_state.md` R25, R26). -/

namespace Sys2Proof.Machine

variable {c : Config} {s : State}

/-- Settles O32: the values by definition, and `exec` and `step` as `Execute` and a step under them. -/
theorem thisHardwareIsOneParameterSet : Obligations.ThisHardwareIsOneParameterSet := by
  unfold Obligations.ThisHardwareIsOneParameterSet
  exact ⟨rfl, rfl, fun _ _ => rfl, rfl, rfl, rfl, hardware_admitted, exec_eq_execWith, step_eq_stepWith⟩

/-! ## Totality -/

/-- However the phases of a step end, its outcome is a next state. -/
theorem conclude_total (pc0 : Int) (p : Res StepResult) : ∃ t, conclude pc0 p = .next t := by
  cases p with
  | ok a s => cases a <;> exact ⟨_, rfl⟩
  | raise k s => exact ⟨_, rfl⟩

theorem execWith_total (c : Config) (i : Instr) (s : State) : ∃ t, execWith c i s = .next t := by
  cases i <;> exact conclude_total _ _

theorem fetchAndRun_total (c : Config) (s : State) : ∃ t, fetchAndRun c (execWith c) s = .next t := by
  unfold fetchAndRun
  cases fetchInstr c s with
  | ok i r => exact execWith_total c i r
  | raise k r => exact ⟨_, rfl⟩

/-- A step of an instance that has not stopped for good is taken from the instance set running (`40_engine.md` R91). -/
theorem stepWith_of_not_ended (h : s.ended = false) :
    stepWith c s = fetchAndRun c (execWith c) (s.setStatus .running) := by
  unfold stepWith stepBy
  cases hs : s.status with
  | running => rw [State.setStatus_self s hs]
  | suspendedOnOutput => rfl
  | halted => simp [State.ended, hs] at h
  | faulted => simp [State.ended, hs] at h

theorem stepWith_total (c : Config) (s : State) : ∃ t, stepWith c s = .next t := by
  cases h : s.ended with
  | true => exact ⟨s, stepWith_of_ended h⟩
  | false => rw [stepWith_of_not_ended h]; exact fetchAndRun_total c _

/-- Settles O35: every meaning ends in `conclude`, and a fault of the fetch in `EnterFault`. -/
theorem everyStepAnswersANextState : Obligations.EveryStepAnswersANextState := by
  unfold Obligations.EveryStepAnswersANextState
  exact ⟨fun i s => exec_eq_execWith i s ▸ execWith_total hardware i s, execWith_total, stepWith_total⟩

/-! ## Codes -/

/-- Settles O50: the two encodings, value by value. -/
theorem statusReportsTheCodes : Obligations.StatusReportsTheCodes := by
  unfold Obligations.StatusReportsTheCodes
  intro s
  refine ⟨?status, ?kind, rfl⟩
  case status =>
    rw [statusTriple]
    cases s.status <;> rfl
  case kind =>
    rw [statusTriple]
    cases s.faultKind with
    | none => rfl
    | some k => cases k <;> rfl

end Sys2Proof.Machine
end

section
/-! PROOFS. The instructions that complete: next state and frame (`41_arithmetic.md` to `45_relative_base.md`). -/

namespace Sys2Proof.Machine

variable {c : Config} {s s1 s2 r : State} {a b d tg : Operand} {x y v target : Int} {n : Nat}
  {op : Int → Int → Except FaultKind Int} {taken : Int → Bool}

/-! ## Frames of a commit after reads -/

theorem Grown.storedFrom (hc : c.Admitted) (hr : Grown c s r) (hwf : s.mem.wf = true)
    (hn : belowCapacity n c.maxMemWords = true) (v npc : Int) (q : List Int) :
    StoredFrom n v npc q s (((r.setIq q).store c n v).setPc npc) :=
  have g := hr.grownFrom hc
  have hwfr : r.mem.wf = true := hr.memWf hc hwf
  { stored := store_word_self hc v hn hwfr
    words := fun a ha => (store_word_ne hc v hn ha).trans (g.words a)
    len := g.len.trans (reach_len_ge hc hn).2
    pc := rfl
    rb := g.rb
    status := g.status
    faultKind := g.faultKind
    faultPc := g.faultPc
    iq := rfl
    ol := g.ol }

theorem GrownFrom.movedFrom (g : GrownFrom s r) (npc nrb : Int) (st : Status) (log : List Int) :
    MovedFrom npc nrb st log s { r with pc := npc, rb := nrb, status := st, ol := log } :=
  { g with pc := rfl, rb := rfl, status := rfl, ol := rfl }

theorem readValue_grownFrom (hc : c.Admitted) (h : readValue c a s = .ok v r) : GrownFrom s r :=
  (readValue_ok hc h).1.grownFrom hc

/-- Two reads in a row. -/
theorem readValue_readValue_grown (hc : c.Admitted) (h1 : readValue c a s = .ok x s1)
    (h2 : readValue c b s1 = .ok y s2) : Grown c s s2 :=
  (readValue_ok hc h1).1.trans (readValue_ok hc h2).1

/-! ## Three operands: Add, Multiply, LessThan, Equals -/

theorem binaryOp_of_ok (hc : c.Admitted) (h1 : readValue c a s = .ok x s1) (h2 : readValue c b s1 = .ok y s2)
    (h3 : writeAddr c d s2 = .ok n s2) (hop : op x y = .ok v) (hpc : inRange c.wordBits (s.pc + 4) = true) :
    binaryOp c op a b d s = .next ((s2.store c n v).setPc (s.pc + 4)) := by
  have hadv : advance c 4 s2 = .ok (s.pc + 4) s2 := advance_of_inRange (readValue_readValue_grown hc h1 h2).pc hpc
  simp only [binaryOp, h1, h2, h3, hop, hadv, check_ok, Res.bind_ok, conclude_continue]

/-- The four instructions on this hardware, by what they compute. -/
theorem binaryOp_stores (hwf : s.mem.wf = true) (hres : ThreeOperandsResolve a b d s x y n s2) (hop : op x y = .ok v)
    (hpc : inRange 64 (s.pc + 4) = true) :
    binaryOp hardware op a b d s = .next ((s2.store hardware n v).setPc (s.pc + 4)) ∧
    StoredFrom n v (s.pc + 4) s.iq s ((s2.store hardware n v).setPc (s.pc + 4)) := by
  obtain ⟨s1, h1, h2, h3⟩ := hres
  have hgrown := readValue_readValue_grown hardware_admitted h1 h2
  refine ⟨binaryOp_of_ok hardware_admitted h1 h2 h3 hop hpc, ?_⟩
  rw [← hgrown.iq]
  exact hgrown.storedFrom hardware_admitted hwf (writeAddr_ok h3).2 v (s.pc + 4) s2.iq

/-- Settles O16: the operation is `ovf` of the sum. -/
theorem addStoresTheSum : Obligations.AddStoresTheSum := by
  unfold Obligations.AddStoresTheSum
  intro s s2 a b d x y n hwf hres hsum hpc
  exact binaryOp_stores hwf hres (ovf_ok_of_inRange hsum) hpc

/-- Settles O17: the operation is `ovf` of the product. -/
theorem multiplyStoresTheProduct : Obligations.MultiplyStoresTheProduct := by
  unfold Obligations.MultiplyStoresTheProduct
  intro s s2 a b d x y n hwf hres hproduct hpc
  exact binaryOp_stores hwf hres (ovf_ok_of_inRange hproduct) hpc

/-- A comparison's word, as the rules write it (`00_scope.md` R9). -/
theorem boolWord_decide (p : Prop) [Decidable p] : boolWord (decide p) = if p then 1 else 0 := by
  simp only [boolWord, decide_eq_true_eq]

/-- Settles O18: the operation is the word of `x < y`, which cannot overflow. -/
theorem lessThanStoresOneOrZero : Obligations.LessThanStoresOneOrZero := by
  unfold Obligations.LessThanStoresOneOrZero
  intro s s2 a b d x y n hwf hres hpc
  exact binaryOp_stores hwf hres (congrArg Except.ok (boolWord_decide (x < y))) hpc

/-- Settles O19: the operation is the word of `x = y`, which cannot overflow. -/
theorem equalsStoresOneOrZero : Obligations.EqualsStoresOneOrZero := by
  unfold Obligations.EqualsStoresOneOrZero
  intro s s2 a b d x y n hwf hres hpc
  exact binaryOp_stores hwf hres (congrArg Except.ok (boolWord_decide (x = y))) hpc

/-! ## Input and Output -/

theorem inputWith_of_ok {rest : List Int} (hn : writeAddr c d s = .ok n s) (hq : s.iq = v :: rest)
    (hpc : inRange c.wordBits (s.pc + 2) = true) :
    inputWith c d s = .next (((s.setIq rest).store c n v).setPc (s.pc + 2)) := by
  have hadv : advance c 2 s = .ok (s.pc + 2) s := advance_of_inRange rfl hpc
  simp only [inputWith, hn, hq, popInput, hadv, check_ok, Res.bind_ok, conclude_continue]

/-- Settles O20: no read comes before the commit, so the state stored to is the one given, without the head of its queue. -/
theorem inputStoresTheQueueHead : Obligations.InputStoresTheQueueHead := by
  unfold Obligations.InputStoresTheQueueHead
  intro s d n v rest hwf hn hq hpc
  exact ⟨inputWith_of_ok hn hq hpc,
    (Grown.refl s).storedFrom hardware_admitted hwf (writeAddr_ok hn).2 v (s.pc + 2) rest⟩

theorem outputWith_of_ok (hc : c.Admitted) (hv : readValue c a s = .ok v r)
    (hroom : belowCapacity s.ol.length c.olCapacity = true) (hpc : inRange c.wordBits (s.pc + 2) = true) :
    outputWith c a s = .next (((r.appendOl v).setPc (s.pc + 2)).setStatus .suspendedOnOutput) := by
  have hgrown := (readValue_ok hc hv).1
  have hadv : advance c 2 r = .ok (s.pc + 2) r := advance_of_inRange hgrown.pc hpc
  simp only [outputWith, hv, checkLogRoom, hgrown.ol, if_pos hroom, hadv, check_ok, Res.bind_ok, conclude_output]

/-- Settles O21: the log of this hardware has no capacity, so there is always room. -/
theorem outputAppendsAndSuspends : Obligations.OutputAppendsAndSuspends := by
  unfold Obligations.OutputAppendsAndSuspends
  intro s r a v hv hpc
  have g := readValue_grownFrom hardware_admitted hv
  refine ⟨outputWith_of_ok hardware_admitted hv rfl hpc, ?_⟩
  rw [← g.rb, ← g.ol]
  exact g.movedFrom _ _ _ _

/-! ## The jumps -/

theorem jumpWhen_of_taken (hx : readValue c a s = .ok x s1) (ht : readValue c tg s1 = .ok target r)
    (htaken : taken x = true) : jumpWhen c taken a tg s = .next (r.setPc target) := by
  simp only [jumpWhen, hx, ht, if_pos htaken, Res.bind_ok, conclude_continue]

theorem jumpWhen_of_not_taken (hc : c.Admitted) (hx : readValue c a s = .ok x s1)
    (ht : readValue c tg s1 = .ok target r) (hnot : ¬ taken x = true) (hpc : inRange c.wordBits (s.pc + 3) = true) :
    jumpWhen c taken a tg s = .next (r.setPc (s.pc + 3)) := by
  have hadv : advance c 3 r = .ok (s.pc + 3) r := advance_of_inRange (readValue_readValue_grown hc hx ht).pc hpc
  simp only [jumpWhen, hx, ht, if_neg hnot, hadv, Res.bind_ok, conclude_continue]

/-- A jump of either kind, taken or not, moves `PC` alone. -/
theorem jumpWhen_moves (hx : readValue hardware a s = .ok x s1) (ht : readValue hardware tg s1 = .ok target r) :
    (taken x = true → jumpWhen hardware taken a tg s = .next (r.setPc target) ∧
      MovedFrom target s.rb s.status s.ol s (r.setPc target)) ∧
    (¬ taken x = true → inRange 64 (s.pc + 3) = true → jumpWhen hardware taken a tg s = .next (r.setPc (s.pc + 3)) ∧
      MovedFrom (s.pc + 3) s.rb s.status s.ol s (r.setPc (s.pc + 3))) := by
  have g := (readValue_readValue_grown hardware_admitted hx ht).grownFrom hardware_admitted
  have hmoved : ∀ npc, MovedFrom npc s.rb s.status s.ol s (r.setPc npc) := fun npc => by
    rw [← g.rb, ← g.status, ← g.ol]
    exact g.movedFrom npc _ _ _
  exact ⟨fun h => ⟨jumpWhen_of_taken hx ht h, hmoved _⟩,
    fun h hpc => ⟨jumpWhen_of_not_taken hardware_admitted hx ht h hpc, hmoved _⟩⟩

/-- Settles O22: the jump is taken when the condition is not 0. -/
theorem jumpIfTrueJumpsOnNonZero : Obligations.JumpIfTrueJumpsOnNonZero := by
  unfold Obligations.JumpIfTrueJumpsOnNonZero
  intro s s1 r a tg x target hx ht
  obtain ⟨htaken, hnot⟩ := jumpWhen_moves (taken := fun x => decide (x ≠ 0)) hx ht
  exact ⟨fun h => htaken (decide_eq_true h), fun h => hnot fun hd => of_decide_eq_true hd h⟩

/-- Settles O23: the jump is taken when the condition is 0. -/
theorem jumpIfFalseJumpsOnZero : Obligations.JumpIfFalseJumpsOnZero := by
  unfold Obligations.JumpIfFalseJumpsOnZero
  intro s s1 r a tg x target hx ht
  obtain ⟨htaken, hnot⟩ := jumpWhen_moves (taken := fun x => decide (x = 0)) hx ht
  exact ⟨fun h => htaken (decide_eq_true h), fun h => hnot fun hd => h (of_decide_eq_true hd)⟩

/-! ## AdjustRelativeBase -/

theorem adjustRelativeBaseWith_of_ok (hc : c.Admitted) (hv : readValue c a s = .ok v r)
    (hrb : inRange c.wordBits (s.rb + v) = true) (hpc : inRange c.wordBits (s.pc + 2) = true) :
    adjustRelativeBaseWith c a s = .next ((r.setRb (s.rb + v)).setPc (s.pc + 2)) := by
  have hgrown := (readValue_ok hc hv).1
  have hadv : advance c 2 r = .ok (s.pc + 2) r := advance_of_inRange hgrown.pc hpc
  simp only [adjustRelativeBaseWith, hv, hgrown.rb, ovf_ok_of_inRange hrb, hadv, check_ok, Res.bind_ok,
    conclude_continue]

/-- Settles O24: `RB` and `PC` are set after the one read. -/
theorem adjustRelativeBaseAddsToRb : Obligations.AdjustRelativeBaseAddsToRb := by
  unfold Obligations.AdjustRelativeBaseAddsToRb
  intro s r a v hv hrb hpc
  have g := readValue_grownFrom hardware_admitted hv
  refine ⟨adjustRelativeBaseWith_of_ok hardware_admitted hv hrb hpc, ?_⟩
  rw [← g.status, ← g.ol]
  exact g.movedFrom _ _ _ _

/-! ## The pseudo-instructions (`30_encoding.md` R72) -/

/-- Settles O26: `NOP` is a jump never taken, `JMP` one always taken, and `MOV` adds 0. -/
theorem pseudoInstructionsDoWhatTheyName : Obligations.PseudoInstructionsDoWhatTheyName := by
  unfold Obligations.PseudoInstructionsDoWhatTheyName
  refine ⟨fun s hpc => ?nop, fun s r tg target ht => ?jmp, fun s r a d x n hx hn hword hpc => ?mov⟩
  case nop =>
    exact jumpWhen_of_not_taken (x := 0) (target := 0) (s1 := s) hardware_admitted rfl rfl (by decide) hpc
  case jmp => exact jumpWhen_of_taken (x := 1) (s1 := s) rfl ht rfl
  case mov =>
    have hsum : ovf hardware (x + 0) = .ok x := by rw [Int.add_zero, ovf_ok_of_inRange hword]
    exact binaryOp_of_ok (op := fun x y => ovf hardware (x + y)) hardware_admitted hx rfl hn hsum hpc

end Sys2Proof.Machine
end

section
/-! PROOFS. Where each instruction faults, under any parameters, with nothing committed (`40_engine.md` R90, R94). -/

namespace Sys2Proof.Machine

variable {c : Config} {s s1 s2 s3 r t : State} {a b d tg : Operand} {i : Instr} {k : FaultKind} {x y v w target : Int}
  {n : Nat} {op : Int → Int → Except FaultKind Int} {taken : Int → Bool}

/-! ## A fault after reads -/

/-- `EnterFault` on a state that reads have grown keeps all but the record (`60_exceptions.md` R194). -/
theorem Grown.faultedFrom (hc : c.Admitted) (hr : Grown c s r) (hs : s.status ≠ .faulted) (k : FaultKind) (pc0 : Int) :
    FaultedFrom k pc0 s (enterFault k pc0 r) := by
  rw [enterFault_of_not_faulted r k pc0 (hr.status ▸ hs)]
  exact { hr.grownFrom hc with status := rfl, faultKind := rfl, faultPc := rfl }

theorem Grown.faultsAs (hc : c.Admitted) (hr : Grown c s r) (hs : s.status ≠ .faulted)
    (h : execWith c i s = .next (enterFault k s.pc r)) : FaultsAs c i s k :=
  ⟨_, h, hr.faultedFrom hc hs k s.pc⟩

theorem readValue_raise_grown (h : readValue c a s = .raise k t) : Grown c s t :=
  (readValue_raise h).symm ▸ .refl s

/-- The advance from the address of the step overflows, after reads (R88). -/
theorem advance_of_overflow (hp : c.overflow = .fault) (hpc : t.pc = s.pc) (h : inRange c.wordBits (s.pc + w) = false) :
    advance c w t = .raise .arithmeticOverflow t := by
  rw [advance, hpc, ovf_fault hp h, check_error]

/-! ## Three operands -/

/-- What the four F3 instructions compute (`41_arithmetic.md` R100, R101; `42_compare.md` R110, R111). -/
def f3Result (c : Config) : Op3 → Int → Int → Except FaultKind Int
  | .add, x, y => ovf c (x + y)
  | .mul, x, y => ovf c (x * y)
  | .lessThan, x, y => .ok (boolWord (decide (x < y)))
  | .equals, x, y => .ok (boolWord (decide (x = y)))

theorem execWith_f3 (o : Op3) : execWith c (o.instr a b d) s = binaryOp c (f3Result c o) a b d s := by
  cases o <;> rfl

/-- The one fault of an F3 operation. -/
theorem f3Result_error {o : Op3} (h : f3Result c o x y = .error k) : k = .arithmeticOverflow := by
  cases o with
  | add => exact ovf_error h
  | mul => exact ovf_error h
  | lessThan => cases h
  | equals => cases h

theorem binaryOp_of_raise_a (h1 : readValue c a s = .raise k s1) :
    binaryOp c op a b d s = .next (enterFault k s.pc s1) := by
  simp only [binaryOp, h1, Res.bind_raise, conclude_raise]

theorem binaryOp_of_raise_b (h1 : readValue c a s = .ok x s1) (h2 : readValue c b s1 = .raise k s2) :
    binaryOp c op a b d s = .next (enterFault k s.pc s2) := by
  simp only [binaryOp, h1, h2, Res.bind_ok, Res.bind_raise, conclude_raise]

theorem binaryOp_of_raise_d (h1 : readValue c a s = .ok x s1) (h2 : readValue c b s1 = .ok y s2)
    (h3 : writeAddr c d s2 = .raise k s3) : binaryOp c op a b d s = .next (enterFault k s.pc s3) := by
  simp only [binaryOp, h1, h2, h3, Res.bind_ok, Res.bind_raise, conclude_raise]

theorem binaryOp_of_op_error (h1 : readValue c a s = .ok x s1) (h2 : readValue c b s1 = .ok y s2)
    (h3 : writeAddr c d s2 = .ok n s2) (hop : op x y = .error k) :
    binaryOp c op a b d s = .next (enterFault k s.pc s2) := by
  simp only [binaryOp, h1, h2, h3, hop, check_error, Res.bind_ok, Res.bind_raise, conclude_raise]

theorem binaryOp_of_advance_raise (h1 : readValue c a s = .ok x s1) (h2 : readValue c b s1 = .ok y s2)
    (h3 : writeAddr c d s2 = .ok n s2) (hop : op x y = .ok v) (hadv : advance c 4 s2 = .raise k s2) :
    binaryOp c op a b d s = .next (enterFault k s.pc s2) := by
  simp only [binaryOp, h1, h2, h3, hop, hadv, check_ok, Res.bind_ok, Res.bind_raise, conclude_raise]

/-- Settles O27: each phase raises after the reads before it; where the operation and the advance may both overflow, the fault
is the same. -/
theorem threeOperandFaultsInOrder : Obligations.ThreeOperandFaultsInOrder := by
  unfold Obligations.ThreeOperandFaultsInOrder
  intro c s a b d i hc hs hi
  obtain ⟨o, rfl⟩ : ∃ o : Op3, i = o.instr a b d := by
    obtain rfl | rfl | rfl | rfl := hi
    exacts [⟨.add, rfl⟩, ⟨.mul, rfl⟩, ⟨.lessThan, rfl⟩, ⟨.equals, rfl⟩]
  have faults {k r} (hr : Grown c s r) (h : binaryOp c (f3Result c o) a b d s = .next (enterFault k s.pc r)) :
      FaultsAs c (o.instr a b d) s k := hr.faultsAs hc hs ((execWith_f3 o).trans h)
  refine ⟨fun k s1 h1 => ?first, fun x s1 k s2 h1 h2 => ?second, fun x y s1 s2 k s3 h1 h2 h3 => ?write,
    fun x y s1 s2 n h1 h2 h3 hp hover => ?overflow⟩
  case first => exact faults (readValue_raise_grown h1) (binaryOp_of_raise_a h1)
  case second =>
    exact faults ((readValue_ok hc h1).1.trans (readValue_raise_grown h2)) (binaryOp_of_raise_b h1 h2)
  case write =>
    obtain rfl := writeAddr_raise h3
    exact faults (readValue_readValue_grown hc h1 h2) (binaryOp_of_raise_d h1 h2 h3)
  case overflow =>
    have hgrown := readValue_readValue_grown hc h1 h2
    refine faults hgrown ?_
    cases hop : f3Result c o x y with
    | error k => exact f3Result_error hop ▸ binaryOp_of_op_error h1 h2 h3 hop
    | ok v =>
      have hpc : inRange c.wordBits (s.pc + 4) = false := by
        obtain ⟨hi, hsum⟩ | ⟨hi, hproduct⟩ | hpc := hover
        · obtain rfl : o = .add := by cases o <;> cases hi; rfl
          cases (ovf_fault hp hsum).symm.trans hop
        · obtain rfl : o = .mul := by cases o <;> cases hi; rfl
          cases (ovf_fault hp hproduct).symm.trans hop
        · exact hpc
      exact binaryOp_of_advance_raise h1 h2 h3 hop (advance_of_overflow hp hgrown.pc hpc)

/-! ## The jumps -/

/-- The faults of a jump of either kind, whose condition decides nothing before the advance (`92_eei_decisions.md` D28). -/
theorem jumpWhen_faults (hc : c.Admitted) (hs : s.status ≠ .faulted)
    (hexec : execWith c i s = jumpWhen c taken a tg s) :
    (∀ k s1, readValue c a s = .raise k s1 → FaultsAs c i s k) ∧
    (∀ x s1 k s2, readValue c a s = .ok x s1 → readValue c tg s1 = .raise k s2 → FaultsAs c i s k) ∧
    (∀ x target s1 s2, readValue c a s = .ok x s1 → readValue c tg s1 = .ok target s2 → ¬ taken x = true →
      c.overflow = .fault → inRange c.wordBits (s.pc + 3) = false → FaultsAs c i s .arithmeticOverflow) := by
  refine ⟨fun k s1 hx => ?condition, fun x s1 k s2 hx ht => ?target, fun x target s1 s2 hx ht hnot hp hpc => ?advance⟩
  case condition =>
    refine (readValue_raise_grown hx).faultsAs hc hs (hexec.trans ?_)
    simp only [jumpWhen, hx, Res.bind_raise, conclude_raise]
  case target =>
    refine ((readValue_ok hc hx).1.trans (readValue_raise_grown ht)).faultsAs hc hs (hexec.trans ?_)
    simp only [jumpWhen, hx, ht, Res.bind_ok, Res.bind_raise, conclude_raise]
  case advance =>
    have hgrown := readValue_readValue_grown hc hx ht
    have hadv : advance c 3 s2 = _ := advance_of_overflow hp hgrown.pc hpc
    refine hgrown.faultsAs hc hs (hexec.trans ?_)
    simp only [jumpWhen, hx, ht, if_neg hnot, hadv, Res.bind_ok, Res.bind_raise, conclude_raise]

/-- Settles O28: both jumps, by when each is not taken. -/
theorem jumpFaultsInOrder : Obligations.JumpFaultsInOrder := by
  unfold Obligations.JumpFaultsInOrder
  intro c s a tg i hc hs hi
  obtain rfl | rfl := hi
  case inl =>
    obtain ⟨hcond, htarget, hadv⟩ := jumpWhen_faults hc hs (i := .jumpIfTrue a tg) rfl
    exact ⟨hcond, htarget, fun x target s1 s2 hx ht hnot => hadv x target s1 s2 hx ht (by simpa using hnot)⟩
  case inr =>
    obtain ⟨hcond, htarget, hadv⟩ := jumpWhen_faults hc hs (i := .jumpIfFalse a tg) rfl
    exact ⟨hcond, htarget, fun x target s1 s2 hx ht hnot => hadv x target s1 s2 hx ht (by simpa using hnot)⟩

/-! ## One operand -/

/-- Settles O29: nothing is read before the commit, so each fault is taken on the state given. -/
theorem inputFaultsInOrder : Obligations.InputFaultsInOrder := by
  unfold Obligations.InputFaultsInOrder
  intro c s d hc hs
  have faults {k} (h : inputWith c d s = .next (enterFault k s.pc s)) : FaultsAs c (.input d) s k :=
    (Grown.refl s).faultsAs hc hs h
  refine ⟨fun k s1 hd => ?address, fun n hd hq => ?empty, fun n hd hq hp hpc => ?advance⟩
  case address =>
    obtain rfl := writeAddr_raise hd
    exact faults (by simp only [inputWith, hd, Res.bind_raise, conclude_raise])
  case empty =>
    exact faults (by simp only [inputWith, hd, hq, popInput, check_error, Res.bind_ok, Res.bind_raise, conclude_raise])
  case advance =>
    obtain ⟨v, rest, hv⟩ := List.exists_cons_of_ne_nil hq
    have hadv : advance c 2 s = _ := advance_of_overflow hp rfl hpc
    exact faults (by
      simp only [inputWith, hd, hv, popInput, hadv, check_ok, Res.bind_ok, Res.bind_raise, conclude_raise])

/-- Settles O30: the read, the room in the log and the advance, in this order. -/
theorem outputFaultsInOrder : Obligations.OutputFaultsInOrder := by
  unfold Obligations.OutputFaultsInOrder
  intro c s a hc hs
  refine ⟨fun k s1 hv => ?operand, fun v s1 hv hfull => ?full, fun v s1 hv hroom hp hpc => ?advance⟩
  case operand =>
    refine (readValue_raise_grown hv).faultsAs hc hs ?_
    simp only [execWith, outputWith, hv, Res.bind_raise, conclude_raise]
  case full =>
    have hgrown := (readValue_ok hc hv).1
    have hnoroom : checkLogRoom c s1 = .error .resourceExhausted := by
      rw [checkLogRoom, hgrown.ol, hfull, if_neg Bool.false_ne_true]
    refine hgrown.faultsAs hc hs ?_
    simp only [execWith, outputWith, hv, hnoroom, check_error, Res.bind_ok, Res.bind_raise, conclude_raise]
  case advance =>
    have hgrown := (readValue_ok hc hv).1
    have hok : checkLogRoom c s1 = .ok () := by rw [checkLogRoom, hgrown.ol, if_pos hroom]
    have hadv : advance c 2 s1 = _ := advance_of_overflow hp hgrown.pc hpc
    refine hgrown.faultsAs hc hs ?_
    simp only [execWith, outputWith, hv, hok, hadv, check_ok, Res.bind_ok, Res.bind_raise, conclude_raise]

/-- Settles O31: the sum is checked first, and where it is a word, the advance. -/
theorem adjustRelativeBaseFaultsInOrder : Obligations.AdjustRelativeBaseFaultsInOrder := by
  unfold Obligations.AdjustRelativeBaseFaultsInOrder
  intro c s a hc hs
  refine ⟨fun k s1 hv => ?operand, fun v s1 hv hp hover => ?overflow⟩
  case operand =>
    refine (readValue_raise_grown hv).faultsAs hc hs ?_
    simp only [execWith, adjustRelativeBaseWith, hv, Res.bind_raise, conclude_raise]
  case overflow =>
    have hgrown := (readValue_ok hc hv).1
    refine hgrown.faultsAs hc hs ?_
    cases hrb : inRange c.wordBits (s.rb + v) with
    | false =>
      simp only [execWith, adjustRelativeBaseWith, hv, hgrown.rb, ovf_fault hp hrb, check_error, Res.bind_ok,
        Res.bind_raise, conclude_raise]
    | true =>
      have hpc := hover.resolve_left (by simp [hrb])
      have hadv : advance c 2 s1 = _ := advance_of_overflow hp hgrown.pc hpc
      simp only [execWith, adjustRelativeBaseWith, hv, hgrown.rb, ovf_ok_of_inRange hrb, hadv, check_ok, Res.bind_ok,
        Res.bind_raise, conclude_raise]

end Sys2Proof.Machine
end

section
/-! PROOFS. Who writes what (`10_state.md` R30), what a faulting step keeps (`40_engine.md` R90), and what every step does to
`MEM_LEN`, the queue and the log. -/

namespace Sys2Proof.Machine

variable {c : Config} {s r t u : State} {i : Instr} {k : FaultKind} {pc0 : Int} {st : Status}

/-! ## The one writer of each element, over the cases of `Execute` -/

theorem ExecCase.rb_eq (h : ExecCase c s t i) (hi : ∀ a, i ≠ .adjustRelativeBase a) : t.rb = s.rb := by
  cases h with
  | fault k r hr ht => rw [ht, enterFault_rb, hr.rb]
  | store d n v npc r _ hr _ _ _ _ _ ht => exact ht ▸ hr.rb
  | input d n v npc rest _ _ _ _ ht => exact ht ▸ rfl
  | output a v npc r hr _ _ _ ht => exact ht ▸ hr.rb
  | jump a tg taken x target npc r1 r _ _ _ hr _ ht => exact ht ▸ hr.rb
  | rebase a v nrb npc r _ _ _ _ _ => exact absurd rfl (hi a)
  | halt npc _ ht => exact ht ▸ rfl

theorem ExecCase.iq_eq (h : ExecCase c s t i) (hi : ∀ d, i ≠ .input d) : t.iq = s.iq := by
  cases h with
  | fault k r hr ht => rw [ht, enterFault_iq, hr.iq]
  | store d n v npc r _ hr _ _ _ _ _ ht => exact ht ▸ hr.iq
  | input d n v npc rest _ _ _ _ _ => exact absurd rfl (hi d)
  | output a v npc r hr _ _ _ ht => exact ht ▸ hr.iq
  | jump a tg taken x target npc r1 r _ _ _ hr _ ht => exact ht ▸ hr.iq
  | rebase a v nrb npc r hr _ _ _ ht => exact ht ▸ hr.iq
  | halt npc _ ht => exact ht ▸ rfl

theorem ExecCase.ol_eq (h : ExecCase c s t i) (hi : ∀ a, i ≠ .output a) : t.ol = s.ol := by
  cases h with
  | fault k r hr ht => rw [ht, enterFault_ol, hr.ol]
  | store d n v npc r _ hr _ _ _ _ _ ht => exact ht ▸ hr.ol
  | input d n v npc rest _ _ _ _ ht => exact ht ▸ rfl
  | output a v npc r _ _ _ _ _ => exact absurd rfl (hi a)
  | jump a tg taken x target npc r1 r _ _ _ hr _ ht => exact ht ▸ hr.ol
  | rebase a v nrb npc r hr _ _ _ ht => exact ht ▸ hr.ol
  | halt npc _ ht => exact ht ▸ rfl

theorem ExecCase.sameWords (hc : c.Admitted) (h : ExecCase c s t i) (hi : i.writeOperand = none) : sameWords s t := by
  cases h with
  | fault k r hr ht => intro a; rw [ht, enterFault_mem]; exact (hr.grownFrom hc).words a
  | store d n v npc r hd _ _ _ _ _ _ _ => cases hi.symm.trans hd
  | input d n v npc rest _ _ _ _ _ => cases hi
  | output a v npc r hr _ _ _ ht => exact ht ▸ (hr.grownFrom hc).words
  | jump a tg taken x target npc r1 r _ _ _ hr _ ht => exact ht ▸ (hr.grownFrom hc).words
  | rebase a v nrb npc r hr _ _ _ ht => exact ht ▸ (hr.grownFrom hc).words
  | halt npc _ ht => exact ht ▸ fun _ => rfl

theorem ExecCase.status_eq (h : ExecCase c s t i) (hout : ∀ a, i ≠ .output a) (hhalt : i ≠ .halt) :
    t.status = s.status ∨ t.status = .faulted := by
  cases h with
  | fault k r _ ht => exact .inr (ht ▸ enterFault_status r k s.pc)
  | store d n v npc r _ hr _ _ _ _ _ ht => exact .inl (ht ▸ hr.status)
  | input d n v npc rest _ _ _ _ ht => exact .inl (ht ▸ rfl)
  | output a v npc r _ _ _ _ _ => exact absurd rfl (hout a)
  | jump a tg taken x target npc r1 r _ _ _ hr _ ht => exact .inl (ht ▸ hr.status)
  | rebase a v nrb npc r hr _ _ _ ht => exact .inl (ht ▸ hr.status)
  | halt npc _ _ => exact absurd rfl hhalt

/-- Settles O38: one clause per element, over the cases of `Execute`. -/
theorem eachElementHasItsOneWriter : Obligations.EachElementHasItsOneWriter := by
  unfold Obligations.EachElementHasItsOneWriter
  intro c i s t hc h
  have hcase := execWith_cases hc h
  exact ⟨hcase.rb_eq, hcase.iq_eq, hcase.ol_eq, hcase.sameWords hc, hcase.status_eq⟩

/-! ## A step that faults -/

/-- An instruction that faults took the fault itself: no commit leaves an instance `Faulted`. -/
theorem ExecCase.of_faulted (h : ExecCase c s t i) (hs : s.status ≠ .faulted) (hf : t.status = .faulted) :
    ∃ k r, Grown c s r ∧ t = enterFault k s.pc r := by
  cases h with
  | fault k r hr ht => exact ⟨k, r, hr, ht⟩
  | store d n v npc r _ hr _ _ _ _ _ ht => rw [ht] at hf; exact absurd (hr.status.symm.trans hf) hs
  | input d n v npc rest _ _ _ _ ht => rw [ht] at hf; exact absurd hf hs
  | output a v npc r _ _ _ _ ht => rw [ht] at hf; cases hf
  | jump a tg taken x target npc r1 r _ _ _ hr _ ht => rw [ht] at hf; exact absurd (hr.status.symm.trans hf) hs
  | rebase a v nrb npc r hr _ _ _ ht => rw [ht] at hf; exact absurd (hr.status.symm.trans hf) hs
  | halt npc _ ht => rw [ht] at hf; cases hf

/-- A fault keeps nothing of the status before it, so it may be read from the instance set running. -/
theorem FaultedFrom.of_setStatus (h : FaultedFrom k pc0 (s.setStatus st) t) : FaultedFrom k pc0 s t := { h with }

/-- Settles O36: the fault is of the fetch or of the instruction, and each is taken on a state that only reads have grown. -/
theorem faultingStepCommitsNothing : Obligations.FaultingStepCommitsNothing := by
  unfold Obligations.FaultingStepCommitsNothing
  intro c s t hc hs h hf
  have hrun : (s.setStatus .running).status ≠ .faulted := by simp
  obtain ⟨-, rfl⟩ | ⟨-, r, hr, hcase⟩ := stepWith_cases hc h
  · exact absurd hf hs
  obtain ⟨k, -, rfl⟩ | ⟨i, -, he⟩ := hcase
  · exact ⟨k, (hr.faultedFrom hc hrun k s.pc).of_setStatus⟩
  · obtain ⟨k, r', hr', rfl⟩ := (execWith_cases hc he).of_faulted (hr.status ▸ hrun) hf
    rw [hr.pc]
    exact ⟨k, ((hr.trans hr').faultedFrom hc hrun k s.pc).of_setStatus⟩

/-! ## Progress: what can only grow, and what can only be consumed -/

/-- Memory did not shrink, the queue was consumed from the front, and the log was appended to (`10_state.md` R21, R27, R28). -/
structure Progress (s t : State) : Prop where
  len : s.mem.len ≤ t.mem.len
  iq : t.iq <:+ s.iq
  ol : s.ol <+: t.ol

theorem Progress.refl (s : State) : Progress s s := ⟨le_refl _, List.suffix_rfl, ⟨[], List.append_nil _⟩⟩

theorem Progress.trans (h : Progress s t) (h' : Progress t u) : Progress s u :=
  ⟨h.len.trans h'.len, h'.iq.trans h.iq, h.ol.trans h'.ol⟩

theorem Progress.enterFault (h : Progress s t) : Progress s (enterFault k pc0 t) :=
  ⟨by rw [enterFault_mem]; exact h.len, by rw [enterFault_iq]; exact h.iq, by rw [enterFault_ol]; exact h.ol⟩

/-- Resuming an instance is no progress. -/
theorem Progress.resume (h : Progress s t) : Progress s (t.setStatus st) := { h with }

theorem Grown.progress (hc : c.Admitted) (hr : Grown c s r) : Progress s r :=
  ⟨(hr.grownFrom hc).len, hr.iq ▸ List.suffix_rfl, hr.ol ▸ (Progress.refl s).ol⟩

theorem ExecCase.progress (hc : c.Admitted) (h : ExecCase c s t i) : Progress s t := by
  cases h with
  | fault k r hr ht => exact ht ▸ (hr.progress hc).enterFault
  | store d n v npc r _ hr _ _ hn _ _ ht =>
    have hp := hr.progress hc
    exact ht ▸ { hp with len := hp.len.trans (reach_len_ge hc hn).2 }
  | input d n v npc rest _ hn hq _ ht =>
    exact ht ▸ ⟨(reach_len_ge hc hn).2, hq ▸ List.suffix_cons v rest, (Progress.refl s).ol⟩
  | output a v npc r hr _ _ _ ht =>
    have hp := hr.progress hc
    exact ht ▸ { hp with ol := hp.ol.trans ⟨[v], rfl⟩ }
  | jump a tg taken x target npc r1 r _ _ _ hr _ ht => exact ht ▸ { hr.progress hc with }
  | rebase a v nrb npc r hr _ _ _ ht => exact ht ▸ { hr.progress hc with }
  | halt npc _ ht => exact ht ▸ { Progress.refl s with }

theorem stepWith_progress (hc : c.Admitted) (h : stepWith c s = .next t) : Progress s t := by
  obtain ⟨-, rfl⟩ | ⟨-, r, hr, hcase⟩ := stepWith_cases hc h
  · exact .refl t
  have hfetch : Progress s r := (Progress.refl s).resume.trans (hr.progress hc)
  obtain ⟨k, -, rfl⟩ | ⟨i, -, he⟩ := hcase
  · exact hfetch.enterFault
  · exact hfetch.trans ((execWith_cases hc he).progress hc)

theorem Reaches.progress (hc : c.Admitted) (h : Reaches c s t) : Progress s t := by
  induction h with
  | refl => exact .refl s
  | step _ hstep ih => exact ih.trans (stepWith_progress hc hstep)

/-- Settles O39: a part of progress. -/
theorem memoryNeverShrinks : Obligations.MemoryNeverShrinks := by
  unfold Obligations.MemoryNeverShrinks
  exact fun c s t hc h => (h.progress hc).len

/-- Settles O45: a part of progress. -/
theorem outputLogIsAppendOnly : Obligations.OutputLogIsAppendOnly := by
  unfold Obligations.OutputLogIsAppendOnly
  exact fun c s t hc h => (h.progress hc).ol

/-- Settles O46: a part of progress. -/
theorem inputQueueIsConsumedInOrder : Obligations.InputQueueIsConsumedInOrder := by
  unfold Obligations.InputQueueIsConsumedInOrder
  exact fun c s t hc h => (h.progress hc).iq

end Sys2Proof.Machine
end

section
/-! PROOFS. The run loops (`40_engine.md` R91, `49_host_interface.md` R163, R164). -/

namespace Sys2Proof.Machine

variable {c : Config} {s t t' u : State} {i : Instr} {fuel fuel' calls : Nat}

/-! ## One step of a run -/

/-- Output alone suspends and appends (`40_engine.md` R92). -/
theorem ExecCase.suspends_iff_output (h : ExecCase c s t i) (hs : s.status = .running) :
    (t.status = .suspendedOnOutput ∧ ∃ v, t.ol = s.ol ++ [v]) ∨ (t.status ≠ .suspendedOnOutput ∧ t.ol = s.ol) := by
  cases h with
  | fault k r hr ht => rw [ht, enterFault_ol, enterFault_status]; exact .inr ⟨by decide, hr.ol⟩
  | output a v npc r hr _ _ _ ht => exact .inl (ht ▸ ⟨rfl, v, congrArg (· ++ [v]) hr.ol⟩)
  | store d n v npc r _ hr _ _ _ _ _ ht => exact .inr ⟨by simp [ht, hr.status, hs], ht ▸ hr.ol⟩
  | input d n v npc rest _ _ _ _ ht => exact .inr ⟨by simp [ht, hs], ht ▸ rfl⟩
  | jump a tg taken x target npc r1 r _ _ _ hr _ ht => exact .inr ⟨by simp [ht, hr.status, hs], ht ▸ hr.ol⟩
  | rebase a v nrb npc r hr _ _ _ ht => exact .inr ⟨by simp [ht, hr.status, hs], ht ▸ hr.ol⟩
  | halt npc _ ht => exact .inr ⟨by simp [ht], ht ▸ rfl⟩

theorem stepWith_suspends_iff_output (hc : c.Admitted) (hs : s.ended = false) (h : stepWith c s = .next t) :
    (t.status = .suspendedOnOutput ∧ ∃ v, t.ol = s.ol ++ [v]) ∨ (t.status ≠ .suspendedOnOutput ∧ t.ol = s.ol) := by
  obtain ⟨hended, -⟩ | ⟨-, r, hr, hcase⟩ := stepWith_cases hc h
  · simp [hs] at hended
  obtain ⟨k, -, rfl⟩ | ⟨i, -, he⟩ := hcase
  · rw [enterFault_ol, enterFault_status]
    exact .inr ⟨by decide, hr.ol⟩
  · have hcases := (execWith_cases hc he).suspends_iff_output hr.status
    rwa [hr.ol] at hcases

/-- Settles O47: a step that does not suspend is a fault or another instruction's commit. -/
theorem suspendsExactlyOnOutput : Obligations.SuspendsExactlyOnOutput := by
  unfold Obligations.SuspendsExactlyOnOutput
  exact fun c s t hc hs h => stepWith_suspends_iff_output hc hs h

/-! ## The loops, unfolded -/

theorem runLoop_of_step (h : stepWith c s = .next u) :
    runLoop c (fuel + 1) s = if u.status = .running then runLoop c fuel u else some u := by
  simp only [runLoop, h]

/-- A loop that returns took a step, after which it went on or stopped. -/
theorem runLoop_eq_some (h : runLoop c (fuel + 1) s = some t) :
    ∃ u, stepWith c s = .next u ∧
      ((u.status = .running ∧ runLoop c fuel u = some t) ∨ (u.status ≠ .running ∧ u = t)) := by
  obtain ⟨u, hu⟩ := stepWith_total c s
  rw [runLoop_of_step hu] at h
  refine ⟨u, hu, ?_⟩
  split at h
  · exact .inl ⟨by assumption, h⟩
  · exact .inr ⟨by assumption, Option.some.inj h⟩

theorem runUntilOutput_of_not_ended (h : s.ended = false) (fuel : Nat) :
    runUntilOutput c fuel s = runLoop c fuel (s.setStatus .running) := by
  rw [runUntilOutput, h, if_neg Bool.false_ne_true]

/-- A step sets a suspended instance running by itself. -/
theorem stepWith_setStatus_running (h : s.ended = false) : stepWith c (s.setStatus .running) = stepWith c s := by
  rw [stepWith_of_not_ended h, stepWith_of_not_ended rfl]
  rfl

theorem not_ended_of_running (h : s.status = .running) : s.ended = false := by simp [State.ended, h]

/-! ## What every step and every resumption keeps, every returning run keeps -/

section Keeps

variable {P : State → Prop} (hstep : ∀ u v, P u → stepWith c u = .next v → P v)
  (hresume : ∀ u, u.ended = false → P u → P (u.setStatus .running))
include hstep

theorem runLoop_keeps (hs : P s) (h : runLoop c fuel s = some t) : P t := by
  induction fuel generalizing s with
  | zero => cases h
  | succ fuel ih =>
    obtain ⟨u, hu, ⟨-, h⟩ | ⟨-, rfl⟩⟩ := runLoop_eq_some h
    · exact ih (hstep s u hs hu) h
    · exact hstep s u hs hu

include hresume

theorem runUntilOutput_keeps (hs : P s) (h : runUntilOutput c fuel s = some t) : P t := by
  cases hended : s.ended with
  | true =>
    rw [runUntilOutput_of_ended hended] at h
    exact Option.some.inj h ▸ hs
  | false =>
    rw [runUntilOutput_of_not_ended hended] at h
    exact runLoop_keeps hstep (hresume s hended hs) h

/-- The calls of `run` end with an instance that has stopped for good. -/
theorem runCalls_keeps (hs : P s) (h : runCalls c fuel calls s = some t) : P t ∧ t.ended = true := by
  induction calls generalizing s with
  | zero => cases h
  | succ calls ih =>
    rw [runCalls] at h
    cases hu : runUntilOutput c fuel s with
    | none => simp [hu] at h
    | some u =>
      have hP : P u := runUntilOutput_keeps hstep hresume hs hu
      simp only [hu] at h
      split at h
      · exact Option.some.inj h ▸ ⟨hP, by assumption⟩
      · exact ih hP h

end Keeps

/-- Settles O55: progress from the start is kept by every step, and the last call left an ended instance. -/
theorem runReturnsOnlyWhenEnded : Obligations.RunReturnsOnlyWhenEnded := by
  unfold Obligations.RunReturnsOnlyWhenEnded
  intro c fuel s t hc h
  obtain ⟨hprogress, hended⟩ := runCalls_keeps (P := Progress s)
    (fun u v hu huv => hu.trans (stepWith_progress hc huv)) (fun u _ hu => hu.resume) (Progress.refl s) h
  exact ⟨hended, hprogress.ol⟩

/-! ## One output a call, one result a call -/

theorem runLoop_one_output (hc : c.Admitted) (hs : s.status = .running) (h : runLoop c fuel s = some t) :
    (t.status = .suspendedOnOutput ∧ ∃ v, t.ol = s.ol ++ [v]) ∨
    ((t.status = .halted ∨ t.status = .faulted) ∧ t.ol = s.ol) := by
  induction fuel generalizing s with
  | zero => cases h
  | succ fuel ih =>
    obtain ⟨u, hu, hnext⟩ := runLoop_eq_some h
    have hout := stepWith_suspends_iff_output hc (not_ended_of_running hs) hu
    obtain ⟨hrun, h⟩ | ⟨hstop, rfl⟩ := hnext
    · obtain ⟨hsusp, -⟩ | ⟨-, hol⟩ := hout
      · cases hrun.symm.trans hsusp
      · exact hol ▸ ih hrun h
    · refine hout.imp_right fun ⟨hns, hol⟩ => ⟨?_, hol⟩
      cases hst : u.status with
      | running => exact absurd hst hstop
      | suspendedOnOutput => exact absurd hst hns
      | halted => exact .inl rfl
      | faulted => exact .inr rfl

/-- Settles O54: the loop goes on after steps that leave the log alone, and stops at the first that does not. -/
theorem oneOutputPerRunUntilOutput : Obligations.OneOutputPerRunUntilOutput := by
  unfold Obligations.OneOutputPerRunUntilOutput
  intro c fuel s t hc hs h
  rw [runUntilOutput_of_not_ended hs] at h
  exact runLoop_one_output (s := s.setStatus .running) hc rfl h

theorem runLoop_unique (h : runLoop c fuel s = some t) (h' : runLoop c fuel' s = some t') : t = t' := by
  induction fuel generalizing s fuel' with
  | zero => cases h
  | succ fuel ih =>
    cases fuel' with
    | zero => cases h'
    | succ fuel' =>
      obtain ⟨u, hu, hnext⟩ := runLoop_eq_some h
      obtain ⟨u', hu', hnext'⟩ := runLoop_eq_some h'
      obtain rfl : u = u' := Host.Outcome.next.inj (hu.symm.trans hu')
      obtain ⟨hrun, h⟩ | ⟨hstop, rfl⟩ := hnext <;> obtain ⟨hrun', h'⟩ | ⟨hstop', rfl⟩ := hnext'
      · exact ih h h'
      · exact absurd hrun hstop'
      · exact absurd hrun' hstop
      · rfl

/-- Settles O56: two evaluations of the loop take the same steps and stop at the same one. -/
theorem runResultIsUnique : Obligations.RunResultIsUnique := by
  unfold Obligations.RunResultIsUnique
  rintro c s t t' ⟨fuel, h⟩ ⟨fuel', h'⟩
  cases hs : s.ended with
  | true =>
    rw [runUntilOutput_of_ended hs] at h h'
    exact Option.some.inj (h.symm.trans h')
  | false =>
    rw [runUntilOutput_of_not_ended hs] at h h'
    exact runLoop_unique h h'

/-! ## A fault ends the run in progress -/

theorem runUntilOutput_of_step_stops (hs : s.ended = false) (h : stepWith c s = .next t) (ht : t.status ≠ .running)
    (fuel : Nat) : runUntilOutput c (fuel + 1) s = some t := by
  rw [runUntilOutput_of_not_ended hs, runLoop_of_step ((stepWith_setStatus_running hs).trans h), if_neg ht]

/-- Settles O49: `EnterFault` by its two cases; a faulted instance has ended, so no step runs, and the loop stops at it. -/
theorem enterFaultRecordsTheFirstFault : Obligations.EnterFaultRecordsTheFirstFault := by
  unfold Obligations.EnterFaultRecordsTheFirstFault
  intro k pc s
  refine ⟨enterFault_of_not_faulted s k pc, fun hf => ?again, fun c t hs h hf fuel => ?run⟩
  case again => exact ⟨enterFault_of_faulted s k pc hf, fun c => stepWith_of_ended (ended_iff.2 (.inr hf))⟩
  case run => exact runUntilOutput_of_step_stops hs h (by simp [hf]) fuel

/-! ## Compositions (`49_host_interface.md` R171 to R173) -/

theorem getLastOutput_cases (s : State) :
    (∃ v, getLastOutput s = (s, .ok v)) ∨
    getLastOutput s = (enterFault .emptyOutputLog s.pc s, .error .emptyOutputLog) := by
  obtain hnil | ⟨log, v, happend⟩ := s.ol.eq_nil_or_concat'
  · exact .inr (getLastOutput_of_nil hnil)
  · exact .inl ⟨v, getLastOutput_of_append happend⟩

/-- Settles O58: the last output of a faulted instance is read without changing it, and the composition tests its status. -/
theorem faultFailsTheComposition : Obligations.FaultFailsTheComposition := by
  unfold Obligations.FaultFailsTheComposition
  refine ⟨fun c fuel program seeds seed signal vm vm' hnew hrun hf => ?pipeline,
    fun c fuel calls ahead behind signal vm vm' hrun hf => ?ring⟩
  case pipeline =>
    obtain ⟨v, hlast⟩ | hlast := getLastOutput_cases vm'
    · simp only [pipelineFrom, hnew, hrun, hlast, if_pos hf]
    · simp only [pipelineFrom, hnew, hrun, hlast]
  case ring =>
    obtain ⟨v, hlast⟩ | hlast := getLastOutput_cases vm'
    · simp only [ringLoop, ringCall, hrun, Option.map_some, hlast, if_pos hf]
    · simp only [ringLoop, ringCall, hrun, Option.map_some, hlast]

end Sys2Proof.Machine
end

section
/-! PROOFS. Construction and every transaction leave a legal state (`49_host_interface.md` R160 to R168). -/

namespace Sys2Proof.Machine

variable {c : Config} {s t : State} {fuel : Nat} {values program : List Int}

/-! ## Construction -/

theorem inRange_zero (bits : Nat) : inRange bits 0 = true := by
  have hpow : 1 ≤ 2 ^ (bits - 1) := Nat.one_le_two_pow
  rw [inRange_iff]
  omega

theorem withinCapacity_zero (cap : Option Nat) : withinCapacity 0 cap = true := by
  cases cap with
  | none => rfl
  | some k => exact decide_eq_true (Nat.zero_le k)

/-- A program of words that fits, over the reset state (`10_state.md` R32). -/
theorem ofProgram_legal (hwords : wordsInRange c program) (hfit : withinCapacity program.length c.maxMemWords = true) :
    (State.reset.setMem (Memory.ofProgram program)).Legal c where
  memWf := ofProgram_wf program
  cells := fun cell hcell => hwords cell.2 (mem_listCells hcell)
  memLen := hfit
  pc := inRange_zero _
  rb := inRange_zero _
  faultPc := inRange_zero _
  iq := fun _ h => absurd h List.not_mem_nil
  ol := fun _ h => absurd h List.not_mem_nil
  iqLen := withinCapacity_zero _
  olLen := withinCapacity_zero _
  record := iff_of_false (fun h => nomatch h) (fun h => h rfl)
  noRecord := fun _ => rfl

/-- Settles O41: the reset state is the one the empty program leaves. -/
theorem resetStateIsLegal : Obligations.ResetStateIsLegal :=
  ofProgram_legal (program := []) (fun _ h => absurd h List.not_mem_nil) rfl

/-- Construction that succeeds met both of its tests (R160). -/
theorem newInstance_eq_next (h : newInstance c program = .next s) :
    wordsInRange c program ∧ withinCapacity program.length c.maxMemWords = true ∧
      s = State.reset.setMem (Memory.ofProgram program) := by
  unfold newInstance at h
  split at h
  case isFalse => cases h
  case isTrue hwords =>
    split at h
    case isFalse => cases h
    case isTrue hfit => cases h; exact ⟨List.all_eq_true.1 hwords, hfit, rfl⟩

theorem newInstance_legal (h : newInstance c program = .next s) : s.Legal c := by
  obtain ⟨hwords, hfit, rfl⟩ := newInstance_eq_next h
  exact ofProgram_legal hwords hfit

/-! ## The transactions -/

theorem setInputs_legal (hs : s.Legal c) (hvalues : wordsInRange c values) : (setInputs c values s).Legal c := by
  by_cases hf : s.status = .faulted
  · rwa [setInputs_of_faulted hf]
  cases hfit : withinCapacity (s.iq.length + values.length) c.iqCapacity with
  | true =>
    rw [setInputs_of_fits hf hfit]
    refine hs.setIq (fun w hw => ?_) (List.length_append ▸ hfit)
    exact (List.mem_append.1 hw).elim (hs.iq w) (hvalues w)
  | false =>
    rw [setInputs_of_exceeds hf hfit]
    exact hs.enterFault hs.pc

theorem getLastOutput_legal (hs : s.Legal c) : (getLastOutput s).1.Legal c := by
  obtain ⟨v, hlast⟩ | hlast := getLastOutput_cases s
  · rwa [hlast]
  · rw [hlast]
    exact hs.enterFault hs.pc

theorem resume_legal (hlive : s.ended = false) (hs : s.Legal c) : (s.setStatus .running).Legal c :=
  hs.setStatus (not_faulted_of_not_ended hlive) (by decide)

theorem transact_legal {tr : Transaction} {r : Response} (hc : c.Admitted)
    (hvalues : ∀ values, tr = .setInputs values → wordsInRange c values) (hs : s.Legal c)
    (h : transact c fuel tr s = some (t, r)) : t.Legal c := by
  have hstep (u v : State) (hu : u.Legal c) : stepWith c u = .next v → v.Legal c := stepWith_legal hc hu
  cases tr with
  | setInputs values =>
    obtain ⟨rfl, -⟩ := Prod.mk.inj (Option.some.inj h)
    exact setInputs_legal hs (hvalues values rfl)
  | runUntilOutput =>
    obtain ⟨u, hrun, hu⟩ := Option.map_eq_some_iff.1 h
    obtain ⟨rfl, -⟩ := Prod.mk.inj hu
    exact runUntilOutput_keeps (P := State.Legal c) hstep (fun _ => resume_legal) hs hrun
  | run =>
    obtain ⟨u, hrun, hu⟩ := Option.map_eq_some_iff.1 h
    obtain ⟨rfl, -⟩ := Prod.mk.inj hu
    exact (runCalls_keeps (P := State.Legal c) hstep (fun _ => resume_legal) hs hrun).1
  | getLastOutput =>
    obtain ⟨rfl, -⟩ := Prod.mk.inj (Option.some.inj h)
    exact getLastOutput_legal hs
  | outputs | memorySnapshot | status =>
    obtain ⟨rfl, -⟩ := Prod.mk.inj (Option.some.inj h)
    exact hs

/-- Settles O43: a run takes steps and resumptions only, and each of them, like every other transaction, keeps the invariant. -/
theorem legalStateKeptByEveryTransaction : Obligations.LegalStateKeptByEveryTransaction := by
  unfold Obligations.LegalStateKeptByEveryTransaction
  intro c hc
  exact ⟨fun program s h => newInstance_legal h, fun fuel tr s t r hvalues hs h => transact_legal hc hvalues hs h⟩

end Sys2Proof.Machine
end

section
/-! PROOFS. The memory-growth unit does what `Access` does (`20_memory.md` R42, R53). -/

namespace Sys2Proof.Machine

variable {c : Config} {m : Memory} {r : Request} {old : Option Int} {n target k d : Nat}

theorem growthRun_succ (c : Config) (k : Nat) (u : GrowthUnit) :
    growthRun c (k + 1) u = growthRun c k (growthStep c u) := rfl

theorem growthRun_succ_last (c : Config) (k : Nat) (u : GrowthUnit) :
    growthRun c (k + 1) u = growthStep c (growthRun c k u) := by
  induction k generalizing u with
  | zero => rfl
  | succ k ih => exact ih (growthStep c u)

/-! ## One transition from each phase -/

theorem growthStep_check_error {kind : FaultKind} (h : checkAddr c r.addr = .error kind) :
    growthStep c ⟨.check, r, m, old⟩ = ⟨.fault kind, r, m, old⟩ := by
  simp only [growthStep, h]

theorem growthStep_check_access (h : checkAddr c r.addr = .ok n) (hn : n < m.len) :
    growthStep c ⟨.check, r, m, old⟩ = ⟨.access, r, m, old⟩ := by
  simp only [growthStep, h, if_pos hn]

theorem growthStep_check_extend (h : checkAddr c r.addr = .ok n) (hn : ¬ n < m.len) :
    growthStep c ⟨.check, r, m, old⟩ = ⟨.extend (capLen c (c.grow n m.len)), r, m, old⟩ := by
  simp only [growthStep, h, if_neg hn]

theorem growthStep_extend_lt (h : m.len < target) :
    growthStep c ⟨.extend target, r, m, old⟩ = ⟨.extend target, r, m.appendZero, old⟩ := by
  simp only [growthStep, if_pos h]

theorem growthStep_extend_done (h : ¬ m.len < target) :
    growthStep c ⟨.extend target, r, m, old⟩ = ⟨.access, r, m, old⟩ := by
  simp only [growthStep, if_neg h]

/-! ## Extending cell by cell -/

/-- Memory extended to a length at once: the cells that exist, and zeros after them (R54). -/
def Memory.extendTo (m : Memory) (len : Nat) : Memory :=
  { cells := m.cells.filter fun cell => decide (cell.1 < m.len), len := len }

theorem reach_eq_extendTo (hn : ¬ n < m.len) : m.reach c n = m.extendTo (capLen c (c.grow n m.len)) := if_neg hn

/-- A cell appended to what was extended: no cell listed lies beyond the end. -/
theorem appendZero_extendTo (h : m.len ≤ k) : (m.extendTo k).appendZero = m.extendTo (k + 1) := by
  have hbelow : ∀ cell ∈ (m.extendTo k).cells, decide (cell.1 < k) = true := fun cell hcell =>
    decide_eq_true (lt_of_lt_of_le (of_decide_eq_true (List.mem_filter.1 hcell).2) h)
  exact congrArg (Memory.mk · (k + 1)) (List.filter_eq_self.2 hbelow)

/-- The unit appends zeros until it has reached its target. -/
theorem growthRun_extend (h : m.len + d + 1 ≤ target) :
    growthRun c (d + 1) ⟨.extend target, r, m, old⟩ = ⟨.extend target, r, m.extendTo (m.len + d + 1), old⟩ := by
  induction d with
  | zero => exact growthStep_extend_lt (c := c) h
  | succ d ih =>
    have hlt : (m.extendTo (m.len + d + 1)).len < target := h
    rw [growthRun_succ_last, ih (by omega), growthStep_extend_lt hlt, appendZero_extendTo (by omega)]
    rfl

/-! ## A request from `CHECK` on -/

/-- An address that passes the tests: the unit comes to access the memory that `Access` grows. -/
theorem growthRun_check_access (hc : c.Admitted) (h : checkAddr c r.addr = .ok n) :
    ∃ k, growthRun c k ⟨.check, r, m, old⟩ = ⟨.access, r, m.reach c n, old⟩ := by
  by_cases hn : n < m.len
  · refine ⟨1, (growthStep_check_access h hn).trans ?_⟩
    rw [Memory.reach, if_pos hn]
  · have hge := capLen_grow_ge hc (not_lt.1 hn) (checkAddr_ok.1 h).2.2
    obtain ⟨d, hd⟩ : ∃ d, capLen c (c.grow n m.len) = m.len + d + 1 :=
      Nat.exists_eq_add_of_lt (by omega)
    refine ⟨d + 1 + 1 + 1, ?_⟩
    rw [growthRun_succ, growthStep_check_extend h hn, growthRun_succ_last, growthRun_extend hd.ge, reach_eq_extendTo hn,
      hd]
    exact growthStep_extend_done (lt_irrefl _)

/-- The access itself, on memory that holds the address. -/
theorem growthStep_access (h : checkAddr c r.addr = .ok n) {v : Int} {m' : Memory}
    (ha : access c r.addr r.write m = .ok (v, m')) :
    growthStep c ⟨.access, r, m.reach c n, old⟩ = ⟨.ready, r, m', some v⟩ := by
  obtain ⟨addr, write⟩ := r
  obtain ⟨-, rfl, -⟩ := checkAddr_ok.1 h
  cases write with
  | none =>
    cases (access_read_of_ok h).symm.trans ha
    rfl
  | some w =>
    cases (access_write_of_ok h).symm.trans ha
    rfl

/-- An address that passes the tests is accessed. -/
theorem access_total_of_ok {addr : Int} (h : checkAddr c addr = .ok n) (write : Option Int) :
    ∃ v m', access c addr write m = .ok (v, m') := by
  cases write with
  | none => exact ⟨_, _, access_read_of_ok h⟩
  | some v => exact ⟨_, _, access_write_of_ok h⟩

/-- Settles O11: the unit checks as `Access` does, grows memory to the same length one zero at a time, and then moves the same
word. -/
theorem growthUnitRefinesAccess : Obligations.GrowthUnitRefinesAccess := by
  unfold Obligations.GrowthUnitRefinesAccess
  intro c m r old hc
  cases h : checkAddr c r.addr with
  | error kind =>
    rw [access_of_error h]
    exact ⟨2, growthStep_check_error h⟩
  | ok n =>
    obtain ⟨v, m', ha⟩ := access_total_of_ok (m := m) h r.write
    obtain ⟨k, hk⟩ := growthRun_check_access (m := m) (old := old) hc h
    rw [ha]
    refine ⟨k + 1 + 1, Nat.succ_pos _, ?_⟩
    rw [growthRun_succ_last, growthRun_succ]
    exact (congrArg (growthStep c) hk).trans (growthStep_access h ha)

end Sys2Proof.Machine
end

section
/-! PROOFS. Fetch and decode of one step: where they fault, and what they hand to `Execute` (`40_engine.md` R80 to R83, R94). -/

namespace Sys2Proof

@[simp] theorem Op1.width_instr (o : Op1) (a : Operand) : (o.instr a).width = 2 := by cases o <;> rfl
@[simp] theorem Op2.width_instr (o : Op2) (a b : Operand) : (o.instr a b).width = 3 := by cases o <;> rfl
@[simp] theorem Op3.width_instr (o : Op3) (a b d : Operand) : (o.instr a b d).width = 4 := by cases o <;> rfl

theorem Header.slots_le (hdr : Header) : hdr.slots ≤ 3 := by cases hdr <;> simp [Header.slots]

end Sys2Proof

namespace Sys2Proof.Machine

variable {c : Config} {s r t u : State} {i : Instr} {k : FaultKind} {m : Mode} {hdr : Header} {x y : Int} {b j slot : Nat}

/-! ## Reads below an address -/

/-- `r` is `s` after reads below `b`: grown at most, and `s` itself when memory reaches `b`. -/
structure ReadBelow (c : Config) (b : Nat) (s r : State) : Prop where
  grown : Grown c s r
  same : b ≤ s.mem.len → r = s

theorem ReadBelow.refl (c : Config) (b : Nat) (s : State) : ReadBelow c b s s := ⟨.refl s, fun _ => rfl⟩

/-- A further read below `b` gives the word `s` holds. -/
theorem ReadBelow.memRead (hr : ReadBelow c b s r) (hc : c.Admitted) (h0 : 0 ≤ x) (hb : x.toNat < b)
    (hcap : belowCapacity x.toNat c.maxMemWords = true) :
    ∃ t, memRead c x r = .ok (s.mem.word x.toNat) t ∧ ReadBelow c b s t := by
  have hread := memRead_of_ok hc (s := r) (checkAddr_fine h0 hcap)
  rw [(hr.grown.grownFrom hc).words] at hread
  refine ⟨_, hread, hr.grown.trans (memRead_grown hc hread), fun hlen => ?_⟩
  rw [hr.same hlen, Memory.reach, if_pos (by omega)]
  rfl

/-- An operand word at an address that is a word below the capacity is fetched (R83). -/
theorem ReadBelow.fetchOperand (hr : ReadBelow c b s r) (hc : c.Admitted) (h0 : 0 ≤ s.pc)
    (hread : OperandWordsReadable c s j) (hslot : slot < j) (hb : s.pc.toNat + 1 + slot < b) (m : Mode) :
    ∃ t, fetchOperand c slot m r = .ok ⟨m, s.mem.word (s.pc.toNat + 1 + slot)⟩ t ∧ ReadBelow c b s t := by
  obtain ⟨hin, hcap⟩ := hread slot hslot
  have haddr : (s.pc + 1 + slot).toNat = s.pc.toNat + 1 + slot := by omega
  rw [← haddr] at hb hcap ⊢
  obtain ⟨t, hword, ht⟩ := hr.memRead hc (by omega) hb hcap
  refine ⟨t, ?_, ht⟩
  simp only [Machine.fetchOperand, hr.grown.pc, ovf_ok_of_inRange hin, hword, check_ok, Res.bind_ok]

/-! ## From the instruction word to the operand words -/

theorem fetchInstr_of_memRead_raise (h : memRead c s.pc s = .raise k r) : fetchInstr c s = .raise k r := by
  simp only [fetchInstr, h, Res.bind_raise]

theorem fetchInstr_of_header_error (hc : c.Admitted) (h0 : 0 ≤ s.pc)
    (hcap : belowCapacity s.pc.toNat c.maxMemWords = true) {e : DecodeError}
    (h : decodeHeader (s.mem.word s.pc.toNat) = .error e) : ∃ r, fetchInstr c s = .raise (faultOfDecodeError e) r := by
  obtain ⟨r, hword, -⟩ := (ReadBelow.refl c _ s).memRead hc h0 (Nat.lt_succ_self _) hcap
  exact ⟨r, by simp only [fetchInstr, hword, checkHeader, h, check_error, Res.bind_ok, Res.bind_raise]⟩

theorem fetchInstr_of_header (hc : c.Admitted) (h0 : 0 ≤ s.pc) (hcap : belowCapacity s.pc.toNat c.maxMemWords = true)
    (hb : s.pc.toNat < b) (h : decodeHeader (s.mem.word s.pc.toNat) = .ok hdr) :
    ∃ r, fetchInstr c s = fetchOperands c hdr r ∧ ReadBelow c b s r := by
  obtain ⟨r, hword, hr⟩ := (ReadBelow.refl c b s).memRead hc h0 hb hcap
  exact ⟨r, by simp only [fetchInstr, hword, checkHeader, h, check_ok, Res.bind_ok], hr⟩

/-! ## The first operand word that cannot be read -/

theorem fetchOperand_of_ovf_error (hpc : u.pc = s.pc) (h : ovf c (s.pc + 1 + slot) = .error k) :
    fetchOperand c slot m u = .raise k u := by
  simp only [fetchOperand, hpc, h, check_error, Res.bind_raise]

theorem fetchOperand_of_checkAddr_error (hpc : u.pc = s.pc) (h : ovf c (s.pc + 1 + slot) = .ok x)
    (haddr : checkAddr c x = .error k) : fetchOperand c slot m u = .raise k u := by
  simp only [fetchOperand, hpc, h, memRead_raise.2 ⟨haddr, rfl⟩, check_ok, Res.bind_ok, Res.bind_raise]

section FirstUnreadable

variable (hc : c.Admitted) (h0 : 0 ≤ s.pc) (hread : OperandWordsReadable c s j)
  (hraise : ∀ m u, Grown c s u → fetchOperand c j m u = .raise k u)
include hc h0 hread hraise

/-- A slot up to the first that cannot be read: it is that one, or it is read and a later one raises. -/
theorem fetchOperand_bind_raises {f : Operand → State → Res Instr} (hr : ReadBelow c (s.pc.toNat + 1 + j) s r)
    (hslot : slot ≤ j) (hf : slot < j → ∀ o u, ReadBelow c (s.pc.toNat + 1 + j) s u → ∃ v, f o u = .raise k v) :
    ∃ v, (fetchOperand c slot m r).bind f = .raise k v := by
  obtain rfl | hlt := hslot.eq_or_lt
  · exact ⟨r, by rw [hraise m r hr.grown, Res.bind_raise]⟩
  · obtain ⟨u, hword, hu⟩ := hr.fetchOperand hc h0 hread hlt (by omega) m
    rw [hword, Res.bind_ok]
    exact hf hlt _ u hu

theorem fetchOperands_raises (hr : ReadBelow c (s.pc.toNat + 1 + j) s r) (hj : j < hdr.slots) :
    ∃ v, fetchOperands c hdr r = .raise k v := by
  cases hdr with
  | f0 => exact absurd hj (Nat.not_lt_zero j)
  | f1 o m0 =>
    refine fetchOperand_bind_raises hc h0 hread hraise hr (Nat.zero_le j) fun h => ?_
    exact absurd hj (by simp only [Header.slots]; omega)
  | f2 o m0 m1 =>
    refine fetchOperand_bind_raises hc h0 hread hraise hr (Nat.zero_le j) fun h _ _ hr => ?_
    refine fetchOperand_bind_raises hc h0 hread hraise hr h fun h => ?_
    exact absurd hj (by simp only [Header.slots]; omega)
  | f3 o m0 m1 m2 =>
    refine fetchOperand_bind_raises hc h0 hread hraise hr (Nat.zero_le j) fun h _ _ hr => ?_
    refine fetchOperand_bind_raises hc h0 hread hraise hr h fun h _ _ hr => ?_
    refine fetchOperand_bind_raises hc h0 hread hraise hr h fun h => ?_
    exact absurd hj (by simp only [Header.slots]; omega)

theorem fetchInstr_of_unreadable_slot (hcap : belowCapacity s.pc.toNat c.maxMemWords = true)
    (h : decodeHeader (s.mem.word s.pc.toNat) = .ok hdr) (hj : j < hdr.slots) : ∃ r, fetchInstr c s = .raise k r := by
  obtain ⟨r, hfetch, hr⟩ := fetchInstr_of_header hc h0 hcap (b := s.pc.toNat + 1 + j) (by omega) h
  rw [hfetch]
  exact fetchOperands_raises hc h0 hread hraise hr hj

end FirstUnreadable

/-- Just beyond the top of the range, `wrap` answers a negative word (`00_scope.md` R12). -/
theorem ovf_wraps_negative (hc : c.Admitted) (hp : c.overflow = .wrap) (hx : inRange c.wordBits x = true) (h0 : 0 ≤ x)
    (hy : x ≤ y) (hyx : y ≤ x + 3) (hout : inRange c.wordBits y = false) : ∃ z, ovf c y = .ok z ∧ z < 0 := by
  obtain ⟨w, hw⟩ : ∃ w, c.wordBits = w + 1 := ⟨c.wordBits - 1, by have := hc.wide; omega⟩
  have hpow : 2 ^ 2 ≤ 2 ^ w := Nat.pow_le_pow_right (by decide) (by have := hc.wide; omega)
  have hhigh : ((2 ^ w : Nat) : Int) ≤ y := by
    by_contra hlow
    refine Bool.false_ne_true (hout.symm.trans (inRange_iff.2 ?_))
    rw [hw, Nat.add_sub_cancel]
    omega
  have hmax : x ≤ ((2 ^ w : Nat) : Int) - 1 := by simpa [hw] using (inRange_iff.1 hx).2
  have hmod : (y + ((2 ^ w : Nat) : Int)) % ((2 ^ w * 2 : Nat) : Int) = y - ((2 ^ w : Nat) : Int) := by
    rw [← Int.sub_emod_right, Int.emod_eq_of_lt (by omega) (by omega)]
    omega
  refine ⟨_, ovf_wrap hp hout, ?_⟩
  rw [wordMin, hw, Nat.add_sub_cancel, pow_succ, Int.sub_neg, hmod]
  omega

/-! ## The faults of fetch and decode -/

/-- A fetch that raises makes the step fault (`40_engine.md` R90). -/
theorem stepWith_of_fetch_raise (hc : c.Admitted) (hs : s.ended = false)
    (h : ∃ r, fetchInstr c (s.setStatus .running) = .raise k r) :
    ∃ t, stepWith c s = .next t ∧ FaultedFrom k s.pc s t := by
  obtain ⟨r, h⟩ := h
  have hgrew := fetchInstr_grew hc (s := s.setStatus .running)
  rw [h] at hgrew
  refine ⟨enterFault k s.pc r, ?_, (Grown.faultedFrom hc hgrew (by simp) k s.pc).of_setStatus⟩
  rw [stepWith_of_not_ended hs, fetchAndRun, h]
  rfl

/-- Settles O34: each clause names the first phase of the fetch that raises; it is the fetch of the instance set running, whose
`PC` and memory are the same. -/
theorem fetchAndDecodeFaultsInOrder : Obligations.FetchAndDecodeFaultsInOrder := by
  unfold Obligations.FetchAndDecodeFaultsInOrder
  intro c s hc hs
  have faults {k} := stepWith_of_fetch_raise (k := k) hc hs
  refine ⟨fun hneg => ?negative, fun h0 hcap => ?exhausted, fun h0 hcap => ⟨fun h => ?opcode, fun h => ?mode,
    fun hlen => ?beyond, fun hdr j h hj hread => ⟨fun hp hout => ?overflow, fun hp hpc hout => ?wrap,
    fun hin hfull => ?unreachable⟩⟩⟩
  case negative => exact faults ⟨_, fetchInstr_of_memRead_raise (memRead_raise.2 ⟨checkAddr_negative hneg, rfl⟩)⟩
  case exhausted => exact faults ⟨_, fetchInstr_of_memRead_raise (memRead_raise.2 ⟨checkAddr_exhausted h0 hcap, rfl⟩)⟩
  case opcode => exact faults (fetchInstr_of_header_error (s := s.setStatus .running) hc h0 hcap h)
  case mode => exact faults (fetchInstr_of_header_error (s := s.setStatus .running) hc h0 hcap h)
  case beyond =>
    have hzero : decodeHeader (s.mem.word s.pc.toNat) = .error .unknownOpcode := by rw [word_of_len_le hlen]; rfl
    exact faults (fetchInstr_of_header_error (s := s.setStatus .running) hc h0 hcap hzero)
  case overflow =>
    refine faults (fetchInstr_of_unreadable_slot hc h0 hread (fun m u hu => ?_) hcap h hj)
    exact fetchOperand_of_ovf_error hu.pc (ovf_fault hp hout)
  case wrap =>
    have hslots := hdr.slots_le
    obtain ⟨z, hz, hneg⟩ := ovf_wraps_negative (y := s.pc + 1 + j) hc hp hpc h0 (by omega) (by omega) hout
    refine faults (fetchInstr_of_unreadable_slot hc h0 hread (fun m u hu => ?_) hcap h hj)
    exact fetchOperand_of_checkAddr_error hu.pc hz (checkAddr_negative hneg)
  case unreachable =>
    have haddr : (s.pc + 1 + j).toNat = s.pc.toNat + 1 + j := by omega
    have hexhausted := checkAddr_exhausted (a := s.pc + 1 + j) (by omega) (haddr ▸ hfull)
    refine faults (fetchInstr_of_unreadable_slot hc h0 hread (fun m u hu => ?_) hcap h hj)
    exact fetchOperand_of_checkAddr_error hu.pc (ovf_ok_of_inRange hin) hexhausted

/-! ## A fetch that succeeds -/

theorem wordsAtPc_eq (s : State) : wordsAtPc s = [s.mem.word s.pc.toNat, s.mem.word (s.pc.toNat + 1 + 0),
    s.mem.word (s.pc.toNat + 1 + 1), s.mem.word (s.pc.toNat + 1 + 2)] := rfl

/-- The words at `PC` decode to the instruction that is fetched, when its operand words can be read. -/
theorem fetchInstr_of_decode {rest : List Int} (hc : c.Admitted) (h0 : 0 ≤ s.pc)
    (hcap : belowCapacity s.pc.toNat c.maxMemWords = true) (hread : OperandWordsReadable c s (i.width - 1))
    (hdec : decode (wordsAtPc s) = .ok (i, rest)) :
    ∃ r, fetchInstr c s = .ok i r ∧ ReadBelow c (s.pc.toNat + i.width) s r := by
  rw [wordsAtPc_eq] at hdec
  cases h : decodeHeader (s.mem.word s.pc.toNat) with
  | error e => simp [decode_error h] at hdec
  | ok hdr =>
    have hfetch {b} := fetchInstr_of_header (b := b) hc h0 hcap (h := h)
    cases hdr with
    | f0 =>
      obtain ⟨rfl, -⟩ := Prod.mk.inj (Except.ok.inj ((decode_f0 h).symm.trans hdec))
      exact hfetch (Nat.lt_succ_self _)
    | f1 o m0 =>
      obtain ⟨rfl, -⟩ := Prod.mk.inj (Except.ok.inj ((decode_f1 h).symm.trans hdec))
      rw [Op1.width_instr] at hread ⊢
      obtain ⟨r, hr, hbelow⟩ := hfetch (b := s.pc.toNat + 2) (by omega)
      obtain ⟨r0, h1, hbelow⟩ := hbelow.fetchOperand hc h0 hread (slot := 0) (by omega) (by omega) m0
      exact ⟨r0, by simp only [hr, fetchOperands, h1, Res.bind_ok], hbelow⟩
    | f2 o m0 m1 =>
      obtain ⟨rfl, -⟩ := Prod.mk.inj (Except.ok.inj ((decode_f2 h).symm.trans hdec))
      rw [Op2.width_instr] at hread ⊢
      obtain ⟨r, hr, hbelow⟩ := hfetch (b := s.pc.toNat + 3) (by omega)
      obtain ⟨r0, h1, hbelow⟩ := hbelow.fetchOperand hc h0 hread (slot := 0) (by omega) (by omega) m0
      obtain ⟨r1, h2, hbelow⟩ := hbelow.fetchOperand hc h0 hread (slot := 1) (by omega) (by omega) m1
      exact ⟨r1, by simp only [hr, fetchOperands, h1, h2, Res.bind_ok], hbelow⟩
    | f3 o m0 m1 m2 =>
      obtain ⟨rfl, -⟩ := Prod.mk.inj (Except.ok.inj ((decode_f3 h).symm.trans hdec))
      rw [Op3.width_instr] at hread ⊢
      obtain ⟨r, hr, hbelow⟩ := hfetch (b := s.pc.toNat + 4) (by omega)
      obtain ⟨r0, h1, hbelow⟩ := hbelow.fetchOperand hc h0 hread (slot := 0) (by omega) (by omega) m0
      obtain ⟨r1, h2, hbelow⟩ := hbelow.fetchOperand hc h0 hread (slot := 1) (by omega) (by omega) m1
      obtain ⟨r2, h3, hbelow⟩ := hbelow.fetchOperand hc h0 hread (slot := 2) (by omega) (by omega) m2
      exact ⟨r2, by simp only [hr, fetchOperands, h1, h2, h3, Res.bind_ok], hbelow⟩

/-- Between 0 and a word every integer is a word. -/
theorem inRange_of_nonneg_of_le {bits : Nat} (h0 : 0 ≤ x) (hxy : x ≤ y) (hy : inRange bits y = true) :
    inRange bits x = true := by
  rw [inRange_iff] at hy ⊢
  omega

/-- Settles O33: on this hardware no capacity keeps an operand word from being read, so the fetch succeeds. -/
theorem stepRunsTheDecodedInstruction : Obligations.StepRunsTheDecodedInstruction := by
  unfold Obligations.StepRunsTheDecodedInstruction
  intro s i rest hs h0 hlast hdec
  have hread : OperandWordsReadable hardware (s.setStatus .running) (i.width - 1) := fun k hk =>
    ⟨inRange_of_nonneg_of_le (by rw [State.setStatus_pc]; omega) (by rw [State.setStatus_pc]; omega) hlast, rfl⟩
  obtain ⟨r, hfetch, hr⟩ := fetchInstr_of_decode (s := s.setStatus .running) hardware_admitted h0 rfl hread hdec
  refine ⟨r, hr.grown.grownFrom hardware_admitted, hr.same, ?_⟩
  rw [step_eq_stepWith, stepWith_of_not_ended hs, fetchAndRun, hfetch, exec_eq_execWith]

/-! ## The one-instruction loop (`40_engine.md` R93) -/

/-- A running instance at a jump, always taken, to its own address. -/
structure AtSelfJump (x : Int) (s : State) : Prop where
  running : s.status = .running
  pcNonneg : 0 ≤ s.pc
  lastInRange : inRange 64 (s.pc + 2) = true
  decodes : ∃ rest, decode (wordsAtPc s) = .ok (.jumpIfTrue ⟨.immediate, x⟩ ⟨.immediate, s.pc⟩, rest)

/-- The fetch may grow memory, which no word shows, and the jump leads back. -/
theorem AtSelfJump.step (hx : x ≠ 0) (h : AtSelfJump x s) : ∃ t, stepWith hardware s = .next t ∧ AtSelfJump x t := by
  obtain ⟨hrun, h0, hlast, rest, hdec⟩ := h
  obtain ⟨r, hr, -, hstep⟩ := stepRunsTheDecodedInstruction s _ rest (not_ended_of_running hrun) h0
    (by simpa [Instr.width, Int.add_sub_assoc] using hlast) hdec
  have hjump : exec (.jumpIfTrue ⟨.immediate, x⟩ ⟨.immediate, s.pc⟩) r = .next (r.setPc s.pc) :=
    jumpWhen_of_taken (x := x) (s1 := r) rfl rfl (decide_eq_true hx)
  have hwords : wordsAtPc (r.setPc s.pc) = wordsAtPc s := List.map_congr_left fun j _ => hr.words _
  exact ⟨r.setPc s.pc, (step_eq_stepWith s).symm.trans (hstep.trans hjump), hr.status, h0, hlast, rest,
    hwords ▸ hdec⟩

theorem AtSelfJump.runLoop_eq_none (hx : x ≠ 0) (h : AtSelfJump x s) (fuel : Nat) : runLoop hardware fuel s = none := by
  induction fuel generalizing s with
  | zero => rfl
  | succ fuel ih =>
    obtain ⟨t, hstep, ht⟩ := h.step hx
    rw [runLoop_of_step hstep, if_pos ht.running, ih ht]

/-- Settles O57: every step leads back to a running instance at the same jump, so no fuel is enough. -/
theorem selfJumpNeverReturns : Obligations.SelfJumpNeverReturns := by
  unfold Obligations.SelfJumpNeverReturns
  intro s x rest hs h0 hlast hx hdec fuel
  have hat : AtSelfJump x (s.setStatus .running) := ⟨rfl, h0, hlast, rest, hdec⟩
  rw [runUntilOutput_of_not_ended hs, hat.runLoop_eq_none hx]

end Sys2Proof.Machine
end
